-- ==== Sys2Proof/Word.lean ====
section
/-! DEFINITION. The machine's words: the Word, the Address and the register-id field (00_scope.md R8, R9;
30_encoding.md R84). -/

namespace Sys2Proof

/-- A Word, "the unit of storage everywhere: registers, cache lines, memory cells" (R14, R57): an unsigned number
of `W` bits. `W` is a parameter of the session (R8), so a Word is held as the number it is; `Params.isWord` says
that a number is a Word of a session, and the machine's invariant that every stored one is (log 2). -/
abbrev Word : Type := Nat

/-- An Address on a port or in an instruction word: an unsigned Word index of `AW = 24` bits (R8, R68). -/
abbrev Addr : Type := BitVec 24

/-- The 4-bit `a` field of an instruction word: a register id `0..15`, of which `8..15` are out of
range (R84). The 4-bit opcode tag has the same type (R84). -/
abbrev Nibble : Type := BitVec 4

end Sys2Proof
end

