-- ==== Sys2Proof/Config.lean ====
section
/-! DEFINITION. What a session fixes at construction: the parameters of 00_scope.md R8. Nothing here is
readable or writable by any command (10_state.md R26). The spec leaves no value free, so no constant here
is opaque. -/

namespace Sys2Proof

/-- `NREG`: the Register File has "8 slots" (R8, R21). -/
abbrev Config.numRegs : Nat := 8

/-- `2^AW`, the number of addresses a port can carry, and the greatest store size the spec allows (R8). -/
abbrev Config.addressSpace : Nat := 16777216

/-- What an unlisted address of the Backing Store reads as: "every cell initialized to the zero Word"
(R33). -/
abbrev Config.resetWord : Word := 0

/-- The parameters of a session (R8, R200): the Word's width `W`, the store size `N` and the cache capacity `C`,
"fixed at construction". Held in State so that a claim over all states is a claim over all of them. DESIGN CHOICE,
log 1. -/
structure Params where
  /-- `W`, the width of a Word in bits. -/
  wordWidth : Nat
  /-- `N`, the number of Words in the Backing Store. -/
  storeSize : Nat
  /-- `C`, the cache capacity in entries. -/
  capacity : Nat
deriving DecidableEq, Repr

/-- The spec's defaults `W = 32`, `N = 1024`, `C = 16` (R8). -/
def Params.default : Params := { wordWidth := 32, storeSize := 1024, capacity := 16 }

/-- A number is a Word of the session: it fits `W` bits (R8, R9). -/
abbrev Params.isWord (p : Params) (v : Nat) : Prop := v < 2 ^ p.wordWidth

/-- The Word on the data lines `[W-1:0]` (R81, R54): a number is cut to its low `W` bits (log 17). -/
def Params.toWord (p : Params) (v : Nat) : Word := v % 2 ^ p.wordWidth

/-- `RW = max(1, ceil(log2 C))`, the width of a rank register (R8, R130). -/
def Params.rankWidth (p : Params) : Nat :=
  max 1 (if p.capacity ≤ 1 then 0 else Nat.log2 (p.capacity - 1) + 1)

/-- `ceil(log2(C+1))`, the width of the valid-slot counter (R28). -/
def Params.countWidth (p : Params) : Nat :=
  if p.capacity = 0 then 0 else Nat.log2 p.capacity + 1

end Sys2Proof
end

