-- ==== Sys2Proof/Syntax.lean ====
section
/-! DEFINITION. The instructions: one constructor per row of spec/opcode_table.json. -/

namespace Sys2Proof

/-- The seven commands of the two levels (R3): the cache commands (R82) and the five recognised opcode
tags with their operands (R80, R87). Register-id and address fields hold exactly the bits the encoding gives
the operand (R81, R84), so an out-of-range one is expressible and is refused at execution, not here (R89). The Word
of `CACHE.WRITE` has the session's width, which `Instr.wellFormed` checks.
`CACHE.READ` drops the ignored `wdata`, `NOP` the ignored `a` and `b` (R88, R95; log 8). -/
inductive Instr where
  /-- `CACHE.READ addr` (R102). -/
  | cacheRead (addr : Addr)
  /-- `CACHE.WRITE addr, v` (R105). `v` is the number on the data lines, a Word of `W` bits (R81, log 17). -/
  | cacheWrite (addr : Addr) (v : Word)
  /-- `LOAD Ra, b`: `a` destination register id, `b` Address (R150). -/
  | load (a : Nibble) (b : Addr)
  /-- `STORE Ra, b`: `a` source register id, `b` Address (R151). -/
  | store (a : Nibble) (b : Addr)
  /-- `ADD Ra, Rb`: `a` source and destination, `b` a register id in the 24-bit field (R152). -/
  | add (a : Nibble) (b : Addr)
  /-- `SUB Ra, Rb`: `a` minuend and destination, `b` subtrahend (R153). -/
  | sub (a : Nibble) (b : Addr)
  /-- `NOP` (R154). -/
  | nop
deriving DecidableEq, Repr

end Sys2Proof
end

