-- ==== Sys2Proof/Machine/Command.lean ====
section
/-! DEFINITION. What stands outside an instruction: the bits a driver hands over, what a decoder answers,
the driver's actions (70_reset_and_hazards.md R208) and the assembler's lines (30_encoding.md R93). -/

namespace Sys2Proof

/-- One whole command as bits: "the driver hands over one whole instruction at a time" (R91). -/
inductive Command where
  /-- An instruction word of format I32, handed to the Execution Unit (R84). -/
  | i32 (word : BitVec 32)
  /-- A request of format CREQ, handed to the cache's requester port (R81, R54): the number on its
  `1 + AW + W` lines, which depends on the session's `W`. -/
  | creq (bits : Nat)
deriving DecidableEq, Repr

/-- What decoding answers. R80 asks for a constructor `unknown(tag)` beside the recognised ones; it stands
here and not in `Instr`, whose constructors are the rows of the opcode table (log 7). -/
inductive Decoded where
  /-- A recognised command. -/
  | instr (i : Instr)
  /-- An instruction word whose tag is none of the five (R89). -/
  | unknown (tag : Nibble)
deriving DecidableEq, Repr

/-- One action of the driver between commands (R208); construction is `State.construct`. -/
inductive DriverAction where
  /-- Execute one instruction, or issue one cache command directly. -/
  | command (c : Command)
  /-- `HostReadReg(id)` (R210). -/
  | readReg (id : Nat)
  /-- `HostReadMem(addr)` (R209). -/
  | readMem (addr : Nat)
  /-- `HostWriteMem(addr, v)`, the pre-fill (R211). -/
  | writeMem (addr : Nat) (v : Word)
deriving DecidableEq, Repr

/-- One assembler line of the grammar of R93, its numbers as written (decimal, unbounded); the cache
commands in the spelling R93 gives them. -/
inductive AsmLine where
  | load (reg addr : Nat)
  | store (reg addr : Nat)
  | add (ra rb : Nat)
  | sub (ra rb : Nat)
  | nop
  | cacheRead (addr : Nat)
  | cacheWrite (addr value : Nat)
deriving DecidableEq, Repr

end Sys2Proof
end

