-- ==== Sys2Proof/WellFormed.lean ====
section
/-! DEFINITION. The checks: which parameters a session may be built with, and which instructions and assembler
lines have an encoding at a given width of the Word. -/

namespace Sys2Proof

/-- The legal parameters of R8: `W >= 1`, `1 <= N <= 2^AW` and `C >= 1`; the rest is refused as a configuration
(93_implementation_defined.md U4, U7, U8; log 11). -/
abbrev Params.legal (p : Params) : Prop :=
  1 ≤ p.wordWidth ∧ 1 ≤ p.storeSize ∧ p.storeSize ≤ Config.addressSpace ∧ 1 ≤ p.capacity

/-- A number fits the 4-bit `a` field (R84, R95: "`a < 16`"). -/
abbrev fitsA (n : Nat) : Prop := n < 16

/-- A number fits the 24-bit `b` or address field (R84, R95: "`b < 2^24`"). -/
abbrev fitsB (n : Nat) : Prop := n < Config.addressSpace

/-- A number fits a Word of `W` bits. -/
abbrev fitsWord (W n : Nat) : Prop := n < 2 ^ W

/-- The instructions that have an encoding at width `W`: the Word of a `CACHE.WRITE` fits the data lines (R81). The
other fields are exactly as wide as the encoding's. -/
def Instr.wellFormed (W : Nat) : Instr → Bool
  | .cacheWrite _ v => decide (fitsWord W v)
  | .cacheRead _ | .load _ _ | .store _ _ | .add _ _ | .sub _ _ | .nop => true

/-- The lines that have an encoding: every number fits its field (R84, R81, R95). Register ids 8 to 15 are
well formed: they are refused at execution (R89). -/
def AsmLine.wellFormed (W : Nat) : AsmLine → Bool
  | .load r n | .store r n | .add r n | .sub r n => decide (fitsA r) && decide (fitsB n)
  | .nop => true
  | .cacheRead n => decide (fitsB n)
  | .cacheWrite n v => decide (fitsB n) && decide (fitsWord W v)

end Sys2Proof
end

