-- ==== Sys2Proof/Decode.lean ====
section
/-! DEFINITION. Decoding, total on all bits (30_encoding.md R86, R95), the encoder beside it, and the
assembler of R93. -/

namespace Sys2Proof

/-- `word[31:28]`, the opcode tag (R84, R86). -/
def opField (w : BitVec 32) : Nibble := w.extractLsb' 28 4

/-- `word[27:24]`, operand1 (R84, R86). -/
def aField (w : BitVec 32) : Nibble := w.extractLsb' 24 4

/-- `word[23:0]`, operand2 (R84, R86). -/
def bField (w : BitVec 32) : Addr := w.extractLsb' 0 24

/-- The decoder of R95 with the opcode numbers of R85. -/
def decodeI32 (w : BitVec 32) : Decoded :=
  match (opField w).toNat with
  | 0 => .instr (.load (aField w) (bField w))
  | 1 => .instr (.store (aField w) (bField w))
  | 2 => .instr (.add (aField w) (bField w))
  | 3 => .instr (.sub (aField w) (bField w))
  | 4 => .instr .nop
  | _ => .unknown (opField w)

/-- Bit `AW + W` of a request: `cmd`, 0 = `CACHE.READ`, 1 = `CACHE.WRITE` (R81). -/
def cmdField {W : Nat} (q : BitVec (1 + 24 + W)) : BitVec 1 := q.extractLsb' (24 + W) 1

/-- Bits `AW + W - 1 : W` of a request: the Address (R81). -/
def addrField {W : Nat} (q : BitVec (1 + 24 + W)) : Addr := q.extractLsb' W 24

/-- Bits `W - 1 : 0` of a request: the Word to write, ignored when `cmd = 0` (R81). -/
def wdataField {W : Nat} (q : BitVec (1 + 24 + W)) : BitVec W := q.extractLsb' 0 W

/-- The command a requester-port request carries: every value is "a legal request" (R81, R85). -/
def decodeCreq {W : Nat} (q : BitVec (1 + 24 + W)) : Instr :=
  match (cmdField q).toNat with
  | 0 => .cacheRead (addrField q)
  | _ => .cacheWrite (addrField q) (wdataField q).toNat

/-- Decoding one whole command in a session whose Words have `W` bits. -/
def decode (W : Nat) : Command → Decoded
  | .i32 w => decodeI32 w
  | .creq q => .instr (decodeCreq (W := W) (BitVec.ofNat (1 + 24 + W) q))

/-- `word = (op << 28) | (a << 24) | b` (R84). -/
def encodeI32 (op a : Nibble) (b : Addr) : BitVec 32 := op ++ a ++ b

/-- `CREQ`, and the memory port's `MREQ`, `= cmd, addr, wdata` from the most significant end (R81). -/
def encodeCreq {W : Nat} (cmd : BitVec 1) (addr : Addr) (wdata : BitVec W) : BitVec (1 + 24 + W) :=
  cmd ++ addr ++ wdata

/-- The encoder of R95 at width `W`, "`NOP` ... encoded with `a = b = 0`"; the unused `wdata` of `CACHE.READ` is
written as 0 (R88). -/
def encode (W : Nat) : Instr → Command
  | .cacheRead addr => .creq (encodeCreq (W := W) 0 addr 0).toNat
  | .cacheWrite addr v => .creq (encodeCreq 1 addr (BitVec.ofNat W v)).toNat
  | .load a b => .i32 (encodeI32 0 a b)
  | .store a b => .i32 (encodeI32 1 a b)
  | .add a b => .i32 (encodeI32 2 a b)
  | .sub a b => .i32 (encodeI32 3 a b)
  | .nop => .i32 (encodeI32 4 0 0)

/-- Encoding what a decoder answers: "`unknown(op)` encoded with `a = b = 0`" (R95). -/
def encodeDecoded (W : Nat) : Decoded → Command
  | .instr i => encode W i
  | .unknown tag => .i32 (encodeI32 tag 0 0)

/-- The command whose bits are `w`, for a row that spec/opcode_table.json gives `nbits` bits in whole bytes: rows of
32 bits are I32 words, the longer ones CREQ requests, whose width is that of the session's Words. Bits above the
format's width are no command (log 15). -/
def commandOfTableWord (W nbits w : Nat) : Option Command :=
  if nbits ≤ 32 then
    if w < 4294967296 then some (.i32 (BitVec.ofNat 32 w)) else none
  else
    if w < 2 ^ (1 + 24 + W) then some (.creq w) else none

/-- The instruction the decoder of a session with Words of `W` bits reads from a table row's bits; none where they
are no recognised instruction. -/
def tableInstr (W nbits w : Nat) : Option Instr :=
  match commandOfTableWord W nbits w with
  | none => none
  | some c =>
    match decode W c with
    | .instr i => some i
    | .unknown _ => none

/-- The same at the default width, at which spec/opcode_table.json numbers the bits (R81). -/
def decodeTableWord (nbits w : Nat) : Option Instr := tableInstr Params.default.wordWidth nbits w

/-- Assembling one line at width `W`: operand1 first (R93); a line whose number does not fit its field has no
encoding. -/
def assemble (W : Nat) (l : AsmLine) : Option Instr :=
  if l.wellFormed W then
    some (match l with
      | .load r n => .load (BitVec.ofNat 4 r) (BitVec.ofNat 24 n)
      | .store r n => .store (BitVec.ofNat 4 r) (BitVec.ofNat 24 n)
      | .add ra rb => .add (BitVec.ofNat 4 ra) (BitVec.ofNat 24 rb)
      | .sub ra rb => .sub (BitVec.ofNat 4 ra) (BitVec.ofNat 24 rb)
      | .nop => .nop
      | .cacheRead n => .cacheRead (BitVec.ofNat 24 n)
      | .cacheWrite n v => .cacheWrite (BitVec.ofNat 24 n) v)
  else none

/-- The spelling of a register: `R<i>`, decimal (R22, R93). -/
def regText (i : Nat) : String := "R" ++ toString i

/-- The text of a line, in the one syntax the source shows: `LOAD R0,10` (R93). -/
def AsmLine.text : AsmLine → String
  | .load r n => "LOAD " ++ regText r ++ "," ++ toString n
  | .store r n => "STORE " ++ regText r ++ "," ++ toString n
  | .add ra rb => "ADD " ++ regText ra ++ "," ++ regText rb
  | .sub ra rb => "SUB " ++ regText ra ++ "," ++ regText rb
  | .nop => "NOP"
  | .cacheRead n => "CACHE.READ " ++ toString n
  | .cacheWrite n v => "CACHE.WRITE " ++ toString n ++ ", " ++ toString v

/-- The line that assembles to an instruction. -/
def Instr.asm : Instr → AsmLine
  | .cacheRead addr => .cacheRead addr.toNat
  | .cacheWrite addr v => .cacheWrite addr.toNat v
  | .load a b => .load a.toNat b.toNat
  | .store a b => .store a.toNat b.toNat
  | .add a b => .add a.toNat b.toNat
  | .sub a b => .sub a.toNat b.toNat
  | .nop => .nop

end Sys2Proof
end

