-- ==== Sys2Proof/Machine/State.lean ====
section
/-! DEFINITION. The machine's state as plain data (10_state.md), its errors and outcomes (60_exceptions.md),
and the state after reset (R33). -/

namespace Sys2Proof.Machine

/-- Which bound an `OutOfRange` fell outside: `ADDR` (raised by the Backing Store) or `REG` (raised by the
Register File) (R90, R171). -/
inductive RangeKind where
  | addr
  | reg
deriving DecidableEq, Repr

/-- The two errors, a closed taxonomy (R170). They end a command and are its answer; they do not stop the
machine (R175, R178). -/
inductive MachineError where
  /-- "an address or register id falls outside its valid bound" (R171), with the offending value. -/
  | outOfRange (kind : RangeKind) (info : Nat)
  /-- The opcode tag is none of the five; carries "the offending opcode tag" (R172). -/
  | unknownOpcode (tag : Nibble)
deriving DecidableEq, Repr

/-- The two outcomes of every primitive and command: it returns or it raises (R10, R12). -/
inductive Result (α : Type) where
  | ok (v : α)
  | err (e : MachineError)
deriving DecidableEq, Repr

/-- What a command or host action answers: `ok` with a Word or nothing, or an error (R12). -/
abbrev Reply : Type := Result (Option Word)

/-- The direction of a Backing Store access (R54: `cmd` 0 = read, 1 = write). -/
inductive MemOp where
  | read
  | write
deriving DecidableEq, Repr

/-- One memory-port transaction, as R56 records it. -/
inductive MemEvent where
  /-- `MR(addr, v)`: a store read that returned `v`. -/
  | mr (addr : Addr) (v : Word)
  /-- `MW(addr, v)`: a store write of `v`. -/
  | mw (addr : Addr) (v : Word)
  /-- `MERR(op, addr)`: an access the store refused. -/
  | merr (op : MemOp) (addr : Addr)
deriving DecidableEq, Repr

/-- The four registers of one cache slot (R28). `rank` holds `RW` bits and never more (R130), so it is kept
as the number it is (log 9). -/
structure Slot where
  valid : Bool
  tag : Addr
  data : Word
  rank : Nat
deriving DecidableEq, Repr

/-- The slot-level cache (R28): `C` slots, numbered by position, and the counter of valid ones. -/
structure Cache where
  slots : List Slot
  count : Nat
deriving DecidableEq, Repr

/-- A Cache Entry of the abstract level: a pair (Address, Word), whose "implicit recency rank" is its place
in the sequence (R27). -/
structure Entry where
  addr : Addr
  word : Word
deriving DecidableEq, Repr

/-- The Backing Store's Words (R29) as (address, Word) pairs in the canonical form of `Memory.wf`. The cells
are Words: "A model must not give `mem` a byte view" (R57; log 3). -/
abbrev Memory : Type := List (Nat × Word)

/-- The whole state (R20): Register File, Cache, Backing Store; the session's parameters (R31); and the
model's own records of the memory port (R56), of the last answer and of the driver's supply (R31). There is
no pc, flag, control register, mode or error latch (R24, R25, R26, R178, R183). -/
structure State where
  /-- The parameters `W`, `N` and `C`, fixed at construction (R8; log 1). -/
  params : Params
  /-- `x[0]` .. `x[7]` (R21). -/
  regs : Vector Word 8
  /-- The cache's slots and counter (R28). -/
  cache : Cache
  /-- The Backing Store (R29). -/
  mem : Memory
  /-- The memory-port trace, oldest first: an observation (R31, R56). -/
  trace : List MemEvent
  /-- What the last command or host action answered; none before the first. An observation: nothing reads
  it (R178; log 6). -/
  reply : Option Reply
  /-- The actions the driver has still to issue, next first: "the driver owns the instruction sequence"
  (R24, R31; log 4). -/
  driver : List DriverAction
deriving DecidableEq, Repr

/-- Faults that stop the machine: none. Both errors of the spec return control to the driver and leave the
machine usable (R175, R178), and no command hangs (R215); no step raises a fault, which is safe. -/
inductive Fault where
deriving DecidableEq, Repr

/-- Why a step may have no meaning. -/
inductive Refusal where
  /-- Raised by an arm of `exec` for an instruction with no meaning; no arm does. Safe: it claims nothing. -/
  | notModelled (mnemonic : String)
  /-- Raised by `step` on a session whose parameters the spec excludes: `W = 0`, `N = 0`, `N > 2^24`,
  `C = 0` (R8, U4, U7, U8; log 11). Safe: no reset makes such a session, and the step claims nothing of it. -/
  | illegalParameters
deriving DecidableEq, Repr

/-- An empty slot as reset leaves it (R33, R143). -/
def Slot.reset : Slot := { valid := false, tag := 0, data := 0, rank := 0 }

/-- The empty cache of `C` slots (R33). -/
def Cache.reset (capacity : Nat) : Cache :=
  { slots := List.replicate capacity Slot.reset, count := 0 }

/-- The state a session with given parameters starts in (R33, R200): store, cache and registers together
(R201). -/
def State.resetWith (p : Params) : State :=
  { params := p
    regs := Vector.replicate 8 0
    cache := Cache.reset p.capacity
    mem := []
    trace := []
    reply := none
    driver := [] }

/-- Construction of a session (R200, R208): refused for parameters outside R8. -/
def State.construct (p : Params) : Option State :=
  if p.legal then some (State.resetWith p) else none

/-- The machine right after reset, at the spec's default parameters (R8, R33). -/
def State.reset : State := State.resetWith Params.default

end Sys2Proof.Machine
end

