-- ==== Sys2Proof/Machine/Flags.lean ====
section
/-! DEFINITION. The arithmetic of ADD and SUB. There are no flags: "no instruction records a carry, a borrow,
a zero or a sign" (10_state.md R25), so no flag is computed here. -/

namespace Sys2Proof.Machine

/-- `p +_W q = (p + q) mod 2^W`: overflow is not detected (R157, R9). -/
def wordAdd (W : Nat) (p q : Word) : Word := (p + q) % 2 ^ W

/-- `p -_W q = (p - q) mod 2^W`: the exact difference, brought into `0 .. 2^W - 1`; borrow is not detected (R157,
R9). -/
def wordSub (W : Nat) (p q : Word) : Word := (((p : Int) - q) % 2 ^ W).toNat

end Sys2Proof.Machine
end

