-- ==== Sys2Proof/Machine/Operands.lean ====
section
/-! DEFINITION. The operand forms (30_encoding.md R86, R87; 42_execution_unit.md R159): a register id in the
4-bit or in the 24-bit field, and an absolute address. None is an immediate, none is scaled or extended. -/

namespace Sys2Proof.Machine

/-- The register id in the `a` field, "exactly as decoded" (R86). -/
def regIdA (a : Nibble) : Nat := a.toNat

/-- The register id in the `b` field: "the whole 24-bit `b` is checked" (R84, V40). -/
def regIdB (b : Addr) : Nat := b.toNat

/-- The effective address of `LOAD` and `STORE`: "the `b` operand itself" (R159). -/
def effectiveAddr (b : Addr) : Addr := b

end Sys2Proof.Machine
end

