-- ==== Sys2Proof/Machine/Ops.lean ====
section
/-! DEFINITION. The named operations over registers, the Backing Store and the memory port, and how a command
raises an error and answers (60_exceptions.md R175). -/

namespace Sys2Proof.Machine

/-! ### Field updates -/

/-- Replaces the Register File. -/
def State.setRegs (s : State) (r : Vector Word 8) : State := { s with regs := r }
/-- Replaces the Cache. -/
def State.setCache (s : State) (c : Cache) : State := { s with cache := c }
/-- Replaces the Backing Store. -/
def State.setMem (s : State) (m : Memory) : State := { s with mem := m }
/-- Appends one event to the memory-port trace (R56). -/
def State.record (s : State) (e : MemEvent) : State := { s with trace := s.trace ++ [e] }
/-- Puts an answer on the response port. -/
def State.setReply (s : State) (r : Reply) : State := { s with reply := some r }
/-- Replaces the driver's supply. -/
def State.setDriver (s : State) (d : List DriverAction) : State := { s with driver := d }

/-! ### Returning and raising -/

/-- `raise E(info)`: the command ends, the state stands as it is; nothing is saved, no mode changes and
control goes nowhere inside the machine (R175, R176). There is no return from it (R178). -/
def raise {α σ : Type} (e : MachineError) (s : σ) : Result α × σ := (.err e, s)

/-- Sequencing of two primitives: a raise ends the command at once, and "every state change made before the
raise stands" (R10). -/
def andThen {α β σ : Type} (r : Result α × σ) (k : α → σ → Result β × σ) : Result β × σ :=
  match r.1 with
  | .ok v => k v r.2
  | .err e => raise e r.2

/-- The end of a command: its outcome goes to whoever issued it (R12, R175), and the machine accepts the next
command "exactly as after an `ok` one" (R178). -/
def respond (r : Reply × State) : Host.Outcome State Fault Refusal :=
  .next (r.2.setReply r.1)

/-! ### Register File -/

/-- The Register File's `get(id)` (R21). -/
def regGet (r : Vector Word 8) (id : Nat) : Result Word :=
  if h : id < 8 then .ok r[id] else .err (.outOfRange .reg id)

/-- The Register File's `set(id, Word)` (R21): that one register and nothing else. -/
def regSet (r : Vector Word 8) (id : Nat) (v : Word) : Result (Vector Word 8) :=
  if h : id < 8 then .ok (r.set id v) else .err (.outOfRange .reg id)

/-- `x[i]` (R10). -/
def readReg (id : Nat) (s : State) : Result Word × State := (regGet s.regs id, s)

/-- `x[i] <- v` (R10). -/
def writeReg (id : Nat) (v : Word) (s : State) : Result Unit × State :=
  match regSet s.regs id v with
  | .ok r => (.ok (), s.setRegs r)
  | .err e => raise e s

/-! ### Memory -/

/-- The Word at an address; an unlisted address reads as the reset content (R29, R33). -/
def Memory.read : Memory → Nat → Word
  | [], _ => Config.resetWord
  | (b, w) :: m, a => if a = b then w else Memory.read m a

/-- Lists a Word at its place in rising address order, over any Word listed there. -/
def Memory.insertCell : Memory → Nat → Word → Memory
  | [], a, v => [(a, v)]
  | (b, w) :: m, a, v =>
    if a < b then (a, v) :: (b, w) :: m
    else if a = b then (a, v) :: m
    else (b, w) :: Memory.insertCell m a v

/-- Unlists an address. -/
def Memory.erase (m : Memory) (a : Nat) : Memory := m.filter fun c => c.1 ≠ a

/-- Writes one Word, keeping the canonical form: writing the Word an unlisted address reads as unlists. -/
def Memory.write (m : Memory) (a : Nat) (v : Word) : Memory :=
  if v = Config.resetWord then m.erase a else m.insertCell a v

/-- The canonical form: addresses strictly rising, no listed Word equal to what an unlisted address reads
as. Equal stores are then equal lists. -/
abbrev Memory.wf (m : Memory) : Prop :=
  m.Pairwise (fun c d => c.1 < d.1) ∧ ∀ c ∈ m, c.2 ≠ Config.resetWord

/-- Every listed address is one of the store's `0 .. N-1` (R29). -/
abbrev Memory.within (m : Memory) (n : Nat) : Prop := ∀ c ∈ m, c.1 < n

/-- The Backing Store's `read(address)`: it makes the range check (R51, R52). -/
def storeRead (p : Params) (m : Memory) (addr : Nat) : Result Word :=
  if addr < p.storeSize then .ok (m.read addr) else .err (.outOfRange .addr addr)

/-- The Backing Store's `write(address, Word)`: a failed write changes nothing (R51, R53). -/
def storeWrite (p : Params) (m : Memory) (addr : Nat) (v : Word) : Result Memory :=
  if addr < p.storeSize then .ok (m.write addr v) else .err (.outOfRange .addr addr)

/-- `MemRead(addr, 1)` on the memory port (R52). -/
def memRead (addr : Addr) (s : State) : Result Word × State :=
  match storeRead s.params s.mem addr.toNat with
  | .ok v => (.ok v, s.record (.mr addr v))
  | .err e => raise e (s.record (.merr .read addr))

/-- `MemWrite(addr, 1, v)` on the memory port (R53). -/
def memWrite (addr : Addr) (v : Word) (s : State) : Result Unit × State :=
  match storeWrite s.params s.mem addr.toNat v with
  | .ok m => (.ok (), (s.setMem m).record (.mw addr v))
  | .err e => raise e (s.record (.merr .write addr))

end Sys2Proof.Machine
end

