-- ==== Sys2Proof/Machine/Tracker.lean ====
section
/-! DEFINITION. The slot-level cache and its recency-rank tracker (41_recency_tracker.md). All slots update at
once from the old ranks. -/

namespace Sys2Proof.Machine

/-- `hit[s] = valid[s] and (tag[s] == addr)`, over the whole tag (R131). -/
def Slot.hits (addr : Addr) (t : Slot) : Bool := t.valid && t.tag == addr

/-- The slot `h` that hits, or none (R131). At most one does, by the invariant of R28 (elsewhere the lowest
numbered: log 12). -/
def Cache.lookup (c : Cache) (addr : Addr) : Option Nat := c.slots.findIdx? (Slot.hits addr)

/-- `data[h]` (R135). -/
def Cache.dataAt (c : Cache) (h : Nat) : Word :=
  match c.slots[h]? with
  | some t => t.data
  | none => Config.resetWord

/-- What `RankTouch(h)` makes of slot `j`, `r` being the old `rank[h]` (R132). -/
def Slot.touched (h r count j : Nat) (t : Slot) : Slot :=
  if j = h then { t with rank := count - 1 }
  else if t.valid ∧ r < t.rank then { t with rank := t.rank - 1 }
  else t

/-- `RankTouch(h)` (R132). -/
def Cache.rankTouch (c : Cache) (h : Nat) : Cache :=
  match c.slots[h]? with
  | some t => { c with slots := c.slots.mapIdx (Slot.touched h t.rank c.count) }
  | none => c

/-- `data[h] <- v` (R136). -/
def Cache.setData (c : Cache) (h : Nat) (v : Word) : Cache :=
  { c with slots := c.slots.modify h fun t => { t with data := v } }

/-- "the lowest-numbered slot with `valid[s] = 0`" (R133). -/
def Cache.freeSlot (c : Cache) : Option Nat := c.slots.findIdx? fun t => !t.valid

/-- The least-recently-used slot, the victim: the valid slot with rank 0 (R134, R139). -/
def Cache.victim (c : Cache) : Option Nat := c.slots.findIdx? fun t => t.valid && t.rank == 0

/-- The most-recently-used slot: the valid slot with rank `count - 1` (R139). -/
def Cache.newest (c : Cache) : Option Nat := c.slots.findIdx? fun t => t.valid && t.rank + 1 == c.count

/-- `RankFill(addr, v)`, for `count < C` (R133). With no free slot, which `count < C` excludes, nothing
changes (log 12). -/
def Cache.rankFill (c : Cache) (addr : Addr) (v : Word) : Cache :=
  match c.freeSlot with
  | some s =>
    { slots := c.slots.set s { valid := true, tag := addr, data := v, rank := c.count }
      count := c.count + 1 }
  | none => c

/-- What `RankEvictFill(addr, v)` makes of slot `j`, `s` being the victim (R134). -/
def Slot.evictFilled (s capacity : Nat) (addr : Addr) (v : Word) (j : Nat) (t : Slot) : Slot :=
  if j = s then { t with tag := addr, data := v, rank := capacity - 1 }
  else { t with rank := t.rank - 1 }

/-- `RankEvictFill(addr, v)`, for `count = C` (R134). With no victim, which `count = C >= 1` excludes, nothing
changes (log 12). -/
def Cache.rankEvictFill (c : Cache) (capacity : Nat) (addr : Addr) (v : Word) : Cache :=
  match c.victim with
  | some s => { c with slots := c.slots.mapIdx (Slot.evictFilled s capacity addr v) }
  | none => c

/-- The fill of a miss: without eviction while there is room, with eviction when full (R135, R136). -/
def Cache.insert (c : Cache) (capacity : Nat) (addr : Addr) (v : Word) : Cache :=
  if c.count < capacity then c.rankFill addr v else c.rankEvictFill capacity addr v

/-- `slot(k)`, the valid slot whose rank is `k` (R140). -/
def Cache.slotOfRank (c : Cache) (k : Nat) : Option Slot :=
  c.slots.find? fun t => t.valid && t.rank == k

/-- The entry a valid slot holds. -/
def Slot.entry (t : Slot) : Entry := { addr := t.tag, word := t.data }

/-- The abstraction function: the valid slots by ascending rank, least recently used first (R140). -/
def Cache.abs (c : Cache) : List Entry :=
  (List.range c.count).filterMap fun k => (c.slotOfRank k).map Slot.entry

/-- The abstract cache of R27, "the normative state" (D17), computed from the slots. -/
def State.entries (s : State) : List Entry := s.cache.abs

/-- The valid slots, by slot number. -/
def Cache.validSlots (c : Cache) : List Slot := c.slots.filter fun t => t.valid

/-- The invariants of R28: `C` slots; `count` is the number of valid ones; their tags are pairwise
different; their ranks are exactly `0 .. count-1`, each once (RANK-PERM, R130). -/
abbrev Cache.Ok (c : Cache) (capacity : Nat) : Prop :=
  c.slots.length = capacity ∧ c.validSlots.length = c.count ∧ (c.validSlots.map Slot.tag).Nodup ∧
    (c.validSlots.map Slot.rank).Perm (List.range c.count)

end Sys2Proof.Machine
end

