-- ==== Sys2Proof/Machine/CacheOps.lean ====
section
/-! DEFINITION. The two cache operations, at slot level (41_recency_tracker.md R135, R136), which every
command that reaches the cache shares: CACHE.READ and LOAD, CACHE.WRITE and STORE. -/

namespace Sys2Proof.Machine

/-- `CacheRead(addr)` (R135, R102). A hit makes no store access; on a miss the store read comes first, so a
failing address leaves the cache as it was (R104). -/
def cacheRead (addr : Addr) (s : State) : Result Word × State :=
  match s.cache.lookup addr with
  | some h => (.ok (s.cache.dataAt h), s.setCache (s.cache.rankTouch h))
  | none =>
    andThen (memRead addr s) fun v s1 =>
      (.ok v, s1.setCache (s1.cache.insert s1.params.capacity addr v))

/-- The cache's part of a write, after the store has taken the Word (R136). -/
def Cache.update (c : Cache) (capacity : Nat) (addr : Addr) (v : Word) : Cache :=
  match c.lookup addr with
  | some h => (c.setData h v).rankTouch h
  | none => c.insert capacity addr v

/-- `CacheWrite(addr, v)` (R136, R105): the store write is always the first step (R111). -/
def cacheWrite (addr : Addr) (v : Word) (s : State) : Result Unit × State :=
  andThen (memWrite addr v s) fun _ s1 =>
    (.ok (), s1.setCache (s1.cache.update s1.params.capacity addr v))

end Sys2Proof.Machine
end

