-- ==== Sys2Proof/Machine/CacheCommands.lean ====
section
/-! DEFINITION. The meanings of the two cache commands (40_cache_commands.md). -/

namespace Sys2Proof.Machine

/-- `CACHE.READ addr` answers the Word read (R102). -/
def execCacheRead (addr : Addr) (s : State) : Host.Outcome State Fault Refusal :=
  respond (andThen (cacheRead addr s) fun v s1 => (.ok (some v), s1))

/-- `CACHE.WRITE addr, v` answers nothing but its error (R105). The request carries the Word on `W` lines (R81;
log 17). -/
def execCacheWrite (addr : Addr) (v : Word) (s : State) : Host.Outcome State Fault Refusal :=
  respond (andThen (cacheWrite addr (s.params.toWord v) s) fun _ s1 => (.ok none, s1))

end Sys2Proof.Machine
end

