-- ==== Sys2Proof/Machine/ExecutionUnit.lean ====
section
/-! DEFINITION. The meanings of the Execution Unit's instructions (42_execution_unit.md). Right-hand sides are
evaluated first, operands left to right as the source writes them (R161); an instruction answers no data
(R90). -/

namespace Sys2Proof.Machine

/-- The answer of an instruction that completed. -/
def done (s : State) : Reply × State := (.ok none, s)

/-- `LOAD Ra, b`: the cache read, then `x[a] <- v` (R150). An out-of-range `a` is refused after the cache read
has completed, whose effects stand (R176). -/
def execLoad (a : Nibble) (b : Addr) (s : State) : Host.Outcome State Fault Refusal :=
  respond <|
    andThen (cacheRead (effectiveAddr b) s) fun v s1 =>
    andThen (writeReg (regIdA a) v s1) fun _ s2 => done s2

/-- `STORE Ra, b`: the register is read before any cache command is issued (R151). -/
def execStore (a : Nibble) (b : Addr) (s : State) : Host.Outcome State Fault Refusal :=
  respond <|
    andThen (readReg (regIdA a) s) fun v s1 =>
    andThen (cacheWrite (effectiveAddr b) v s1) fun _ s2 => done s2

/-- `ADD Ra, Rb`: `b` is read first (R152, R162). -/
def execAdd (a : Nibble) (b : Addr) (s : State) : Host.Outcome State Fault Refusal :=
  respond <|
    andThen (readReg (regIdB b) s) fun p s1 =>
    andThen (readReg (regIdA a) s1) fun q s2 =>
    andThen (writeReg (regIdA a) (wordAdd s.params.wordWidth p q) s2) fun _ s3 => done s3

/-- `SUB Ra, Rb`: `a`, the minuend, is read first (R153, R162). -/
def execSub (a : Nibble) (b : Addr) (s : State) : Host.Outcome State Fault Refusal :=
  respond <|
    andThen (readReg (regIdA a) s) fun p s1 =>
    andThen (readReg (regIdB b) s1) fun q s2 =>
    andThen (writeReg (regIdA a) (wordSub s.params.wordWidth p q) s2) fun _ s3 => done s3

/-- `NOP`: "no effect" (R154). -/
def execNop (s : State) : Host.Outcome State Fault Refusal := respond (done s)

/-- An instruction whose tag is none of the five: `raise UnknownOpcode(tag)`, operands not examined, no state
change (R155). -/
def execUnknown (tag : Nibble) (s : State) : Host.Outcome State Fault Refusal :=
  respond (raise (.unknownOpcode tag) s)

end Sys2Proof.Machine
end

