-- ==== Sys2Proof/Machine/Dispatch.lean ====
section
/-! DEFINITION. One arm per instruction: the transition table of 42_execution_unit.md R156 and the two cache
commands. -/

namespace Sys2Proof.Machine

/-- The effect of one decoded command. -/
def exec (i : Instr) (s : State) : Host.Outcome State Fault Refusal :=
  match i with
  | .cacheRead addr => Sys2Proof.Machine.execCacheRead addr s
  | .cacheWrite addr v => Sys2Proof.Machine.execCacheWrite addr v s
  | .load a b => Sys2Proof.Machine.execLoad a b s
  | .store a b => Sys2Proof.Machine.execStore a b s
  | .add a b => Sys2Proof.Machine.execAdd a b s
  | .sub a b => Sys2Proof.Machine.execSub a b s
  | .nop => Sys2Proof.Machine.execNop s

end Sys2Proof.Machine
end

