-- ==== Sys2Proof/Machine/Driver.lean ====
section
/-! DEFINITION. What the driver can do to the machine, each action between commands (70_reset_and_hazards.md
R208). There is no fetch from memory: an action is taken from the driver's supply (20_memory.md R65). -/

namespace Sys2Proof.Machine

/-- The next action the driver supplies and the state with it taken from the supply (R24, R156). -/
def nextAction (s : State) : Option (DriverAction × State) :=
  match s.driver with
  | [] => none
  | act :: rest => some (act, s.setDriver rest)

/-- `execute(instr)`, or a command on the requester port: the decoder, then the rule of the opcode (R156,
R54). -/
def runCommand (c : Command) (s : State) : Host.Outcome State Fault Refusal :=
  match decode s.params.wordWidth c with
  | .instr i => exec i s
  | .unknown tag => execUnknown tag s

/-- The answer of a host read. -/
def hostAnswer (r : Result Word) (s : State) : Reply × State :=
  match r with
  | .ok v => (.ok (some v), s)
  | .err e => raise e s

/-- `HostReadReg(id)`: the Register File's own `get`, no side effect (R210). -/
def hostReadReg (id : Nat) (s : State) : Host.Outcome State Fault Refusal :=
  respond (hostAnswer (regGet s.regs id) s)

/-- `HostReadMem(addr)`: the store's own `read`, not through the cache and not on the trace (R209). -/
def hostReadMem (addr : Nat) (s : State) : Host.Outcome State Fault Refusal :=
  respond (hostAnswer (storeRead s.params s.mem addr) s)

/-- `HostWriteMem(addr, v)`: the store's own `write` of a Word; the cache is not told (R211; log 17). -/
def hostWriteMem (addr : Nat) (v : Word) (s : State) : Host.Outcome State Fault Refusal :=
  respond <|
    match storeWrite s.params s.mem addr (s.params.toWord v) with
    | .ok m => (.ok none, s.setMem m)
    | .err e => raise e s

/-- One action of the driver (R208). -/
def runAction (act : DriverAction) (s : State) : Host.Outcome State Fault Refusal :=
  match act with
  | .command c => runCommand c s
  | .readReg id => hostReadReg id s
  | .readMem addr => hostReadMem addr s
  | .writeMem addr v => hostWriteMem addr v s

/-- Puts a command at the head of the driver's supply. -/
def State.supply (s : State) (c : Command) : State := s.setDriver (.command c :: s.driver)

end Sys2Proof.Machine
end

