-- ==== Sys2Proof/Machine/Step.lean ====
section
/-! DEFINITION. One step: the next action the driver supplies, to its end (70_reset_and_hazards.md R213,
R214). -/

namespace Sys2Proof.Machine

/-- One step. A session with parameters the spec refuses has no meaning (R8); with nothing supplied the unit
"waits for the driver's next call" and nothing changes (R156; log 5). -/
def step (s : State) : Host.Outcome State Fault Refusal :=
  if s.params.legal then
    match nextAction s with
    | none => .next s
    | some (act, s1) => runAction act s1
  else .refused .illegalParameters

/-- `s` with the command whose bits are `w` next in the driver's supply, so that `step` runs exactly
it (log 4). Bits that are no command leave `s` as it is. -/
def State.withFetchWord (s : State) (nbits w : Nat) : State :=
  match commandOfTableWord s.params.wordWidth nbits w with
  | some c => s.supply c
  | none => s

end Sys2Proof.Machine
end

