-- ==== Sys2Proof/Machine/Abstract.lean ====
section
/-! DEFINITION. The abstract level (00_scope.md R15): the cache as one recency-ordered sequence, least recently
used first (R11, R27), and the two commands over it (40_cache_commands.md). It is the normative description
that the slot level of Machine/Tracker.lean refines (41_recency_tracker.md R141); `exec` does not call it. -/

namespace Sys2Proof.Machine

/-- `Lookup(addr)`: the index of the entry with that address, or none (R100). -/
def lookupEntry (es : List Entry) (addr : Addr) : Option Nat := es.findIdx? fun e => e.addr == addr

/-- `Touch(i)`: entry `i` to the last position, the others in their order (R101). -/
def touchEntry (es : List Entry) (i : Nat) : List Entry :=
  match es[i]? with
  | some e => es.eraseIdx i ++ [e]
  | none => es

/-- `Insert(addr, v)`: evict `cache[0]` when exactly full, then append (R108, R109). -/
def insertEntry (capacity : Nat) (es : List Entry) (addr : Addr) (v : Word) : List Entry :=
  (if es.length = capacity then es.tail else es) ++ [{ addr := addr, word := v }]

/-- `cache[i].word <- v` (R105). -/
def setEntryWord (es : List Entry) (i : Nat) (v : Word) : List Entry :=
  es.modify i fun e => { e with word := v }

/-- The abstract state a cache command works on: the sequence, the store and the memory-port trace. -/
structure AbsState where
  entries : List Entry
  mem : Memory
  trace : List MemEvent
deriving DecidableEq, Repr

/-- The abstract view of a state (R140). -/
def State.abs (s : State) : AbsState := { entries := s.entries, mem := s.mem, trace := s.trace }

/-- `MemRead(addr, 1)` at the abstract level (R52). -/
def absMemRead (p : Params) (addr : Addr) (t : AbsState) : Result Word × AbsState :=
  match storeRead p t.mem addr.toNat with
  | .ok v => (.ok v, { t with trace := t.trace ++ [.mr addr v] })
  | .err e => raise e { t with trace := t.trace ++ [.merr .read addr] }

/-- `MemWrite(addr, 1, v)` at the abstract level (R53). -/
def absMemWrite (p : Params) (addr : Addr) (v : Word) (t : AbsState) : Result Unit × AbsState :=
  match storeWrite p t.mem addr.toNat v with
  | .ok m => (.ok (), { t with mem := m, trace := t.trace ++ [.mw addr v] })
  | .err e => raise e { t with trace := t.trace ++ [.merr .write addr] }

/-- `CacheRead(addr)` (R102). -/
def absCacheRead (p : Params) (addr : Addr) (t : AbsState) : Result Word × AbsState :=
  match lookupEntry t.entries addr with
  | some i =>
    match t.entries[i]? with
    | some e => (.ok e.word, { t with entries := touchEntry t.entries i })
    | none => (.ok Config.resetWord, t)
  | none =>
    andThen (absMemRead p addr t) fun v t1 =>
      (.ok v, { t1 with entries := insertEntry p.capacity t1.entries addr v })

/-- `CacheWrite(addr, v)` (R105). -/
def absCacheWrite (p : Params) (addr : Addr) (v : Word) (t : AbsState) : Result Unit × AbsState :=
  andThen (absMemWrite p addr v t) fun _ t1 =>
    match lookupEntry t1.entries addr with
    | some i => (.ok (), { t1 with entries := touchEntry (setEntryWord t1.entries i v) i })
    | none => (.ok (), { t1 with entries := insertEntry p.capacity t1.entries addr v })

end Sys2Proof.Machine
end

