-- ==== Sys2Proof/Machine/Ports.lean ====
section
/-! DEFINITION. What the ports carry (20_memory.md R54): the request and response formats of the requester port
and the memory port (30_encoding.md R81, R83), and the Execution Unit's response (R90). -/

namespace Sys2Proof.Machine

/-- The error codes, one code space for all ports: 0 ok, 1 `OutOfRange`, 2 `UnknownOpcode` (R171, R172,
C7). -/
def Reply.errCode : Reply → BitVec 2
  | .ok _ => 0
  | .err (.outOfRange _ _) => 1
  | .err (.unknownOpcode _) => 2

/-- The Word a response carries: the Word read, otherwise 0 (R83). -/
def Reply.rdata : Reply → Word
  | .ok (some v) => v
  | _ => 0

/-- `CRSP`, of `2 + W` bits: `err` in bits `W+1 : W`, `rdata` in bits `W-1 : 0` (R83). -/
def Reply.crsp (W : Nat) (r : Reply) : BitVec (2 + W) := r.errCode ++ BitVec.ofNat W r.rdata

/-- `IRSP`, the Execution Unit's response to one instruction (R90). The spec gives its fields and widths and
no bit positions (log 14). -/
structure IRsp where
  err : BitVec 2
  kind : BitVec 1
  info : BitVec 24
deriving DecidableEq, Repr

/-- The code of the kind of an `OutOfRange`: `ADDR` 0, `REG` 1 (R90). -/
def RangeKind.code : RangeKind → BitVec 1
  | .addr => 0
  | .reg => 1

/-- The `IRSP` of an answer (R90, R171, R172). -/
def Reply.irsp : Reply → IRsp
  | .ok _ => { err := 0, kind := 0, info := 0 }
  | .err (.outOfRange k n) => { err := 1, kind := k.code, info := BitVec.ofNat 24 n }
  | .err (.unknownOpcode tag) => { err := 2, kind := 0, info := tag.zeroExtend 24 }

/-- The `MREQ` of a store access, the layout of `CREQ` with the requester's address unchanged (R54, R81). -/
def MemOp.mreq {W : Nat} (op : MemOp) (addr : Addr) (wdata : BitVec W) : BitVec (1 + 24 + W) :=
  match op with
  | .read => encodeCreq 0 addr wdata
  | .write => encodeCreq 1 addr wdata

/-- What the store answered to a memory-port transaction. -/
def MemEvent.reply : MemEvent → Reply
  | .mr _ v => .ok (some v)
  | .mw _ _ => .ok none
  | .merr _ addr => .err (.outOfRange .addr addr.toNat)

/-- `MRSP`, with the layout of `CRSP` (R83). -/
def MemEvent.mrsp (W : Nat) (e : MemEvent) : BitVec (2 + W) := e.reply.crsp W

/-- The address of a memory-port transaction. -/
def MemEvent.addr : MemEvent → Addr
  | .mr addr _ => addr
  | .mw addr _ => addr
  | .merr _ addr => addr

/-- The direction of a memory-port transaction. -/
def MemEvent.op : MemEvent → MemOp
  | .mr _ _ => .read
  | .mw _ _ => .write
  | .merr op _ => op

end Sys2Proof.Machine
end

