-- ==== Sys2Proof/Safety.lean ====
section
/-! DEFINITION. The words claims are made in: the machine's invariants (10_state.md R27, R28), the host's
obligation (70_reset_and_hazards.md R206), which error a command reports (60_exceptions.md R173, R174), the
machine with the cache removed (40_cache_commands.md R121), and runs of commands. -/

namespace Sys2Proof.Machine

/-- INV-RANGE at slot level: every cached address is a valid store address (R27). -/
abbrev State.TagsInRange (s : State) : Prop :=
  ∀ t ∈ s.cache.validSlots, t.tag.toNat < s.params.storeSize

/-- Every register, slot and cell holds a Word of the session's `W` bits (R14, R21, R28, R29). -/
abbrev State.WordsFit (s : State) : Prop :=
  (∀ v ∈ s.regs.toList, s.params.isWord v) ∧ (∀ t ∈ s.cache.slots, s.params.isWord t.data) ∧
    ∀ c ∈ s.mem, s.params.isWord c.2

/-- The invariant of every reachable state: legal parameters (R8), a canonical store inside `0 .. N-1` (R29),
the cache's INV-CAP, INV-UNIQ, INV-ORDER and INV-RANGE through its slots (R27, R28), and every stored number a
Word. -/
abbrev State.Inv (s : State) : Prop :=
  s.params.legal ∧ s.mem.wf ∧ s.mem.within s.params.storeSize ∧ s.cache.Ok s.params.capacity ∧
    s.TagsInRange ∧ s.WordsFit

/-- INV-COH: every cached Word equals the store's Word at its address (R27, R118). -/
abbrev State.Coherent (s : State) : Prop :=
  ∀ e ∈ s.entries, s.mem.read e.addr.toNat = e.word

/-- The address is cached: some entry has it (R100). -/
abbrev State.Caches (s : State) (addr : Nat) : Prop :=
  ∃ e ∈ s.entries, e.addr.toNat = addr

/-- The host's obligation: "write the store directly only at addresses not currently cached" (R206). -/
def State.HostObeys (s : State) : Prop :=
  ∀ addr v, s.driver.head? = some (.writeMem addr v) → ¬ s.Caches addr

/-- The error a command must report, and none where it completes: the conditions of R173 in the priority of
R174. -/
def expectedError (p : Params) : Instr → Option MachineError
  | .cacheRead addr | .cacheWrite addr _ =>
    if p.storeSize ≤ addr.toNat then some (.outOfRange .addr addr.toNat) else none
  | .load a b =>
    if p.storeSize ≤ b.toNat then some (.outOfRange .addr b.toNat)
    else if 8 ≤ a.toNat then some (.outOfRange .reg a.toNat) else none
  | .store a b =>
    if 8 ≤ a.toNat then some (.outOfRange .reg a.toNat)
    else if p.storeSize ≤ b.toNat then some (.outOfRange .addr b.toNat) else none
  | .add a b =>
    if 8 ≤ b.toNat then some (.outOfRange .reg b.toNat)
    else if 8 ≤ a.toNat then some (.outOfRange .reg a.toNat) else none
  | .sub a b =>
    if 8 ≤ a.toNat then some (.outOfRange .reg a.toNat)
    else if 8 ≤ b.toNat then some (.outOfRange .reg b.toNat) else none
  | .nop => none

/-- The error of an answer, if it is one. -/
def Result.error? {α : Type} : Result α → Option MachineError
  | .ok _ => none
  | .err e => some e

/-! ### The machine with the cache removed (R121) -/

/-- The values of a state: parameters, registers and store. -/
structure Flat where
  params : Params
  regs : Vector Word 8
  mem : Memory
deriving DecidableEq, Repr

/-- The values of a state, its cache and records forgotten. -/
def State.flat (s : State) : Flat := { params := s.params, regs := s.regs, mem := s.mem }

/-- The Register File's `get` of the cacheless machine. -/
def Flat.getReg (id : Nat) (f : Flat) : Result Word × Flat := (regGet f.regs id, f)

/-- The Register File's `set` of the cacheless machine. -/
def Flat.setReg (id : Nat) (v : Word) (f : Flat) : Result Unit × Flat :=
  match regSet f.regs id v with
  | .ok r => (.ok (), { f with regs := r })
  | .err e => raise e f

/-- The store's `read`, in the cache's place. -/
def Flat.load (addr : Addr) (f : Flat) : Result Word × Flat :=
  (storeRead f.params f.mem addr.toNat, f)

/-- The store's `write`, in the cache's place. -/
def Flat.save (addr : Addr) (v : Word) (f : Flat) : Result Unit × Flat :=
  match storeWrite f.params f.mem addr.toNat v with
  | .ok m => (.ok (), { f with mem := m })
  | .err e => raise e f

/-- A command of the machine with the cache removed: the same rules over the store alone (R121, R156). -/
def flatExec (i : Instr) (f : Flat) : Reply × Flat :=
  match i with
  | .cacheRead addr => andThen (f.load addr) fun v g => (.ok (some v), g)
  | .cacheWrite addr v => andThen (f.save addr (f.params.toWord v)) fun _ g => (.ok none, g)
  | .load a b =>
    andThen (f.load b) fun v g => andThen (g.setReg a.toNat v) fun _ h => (.ok none, h)
  | .store a b =>
    andThen (f.getReg a.toNat) fun v g => andThen (g.save b v) fun _ h => (.ok none, h)
  | .add a b =>
    andThen (f.getReg b.toNat) fun p g => andThen (g.getReg a.toNat) fun q h =>
      andThen (h.setReg a.toNat (wordAdd f.params.wordWidth p q)) fun _ k => (.ok none, k)
  | .sub a b =>
    andThen (f.getReg a.toNat) fun p g => andThen (g.getReg b.toNat) fun q h =>
      andThen (h.setReg a.toNat (wordSub f.params.wordWidth p q)) fun _ k => (.ok none, k)
  | .nop => (.ok none, f)

/-- A list of commands on the cacheless machine: every answer, and the values at the end. -/
def flatRun : List Instr → Flat → List Reply × Flat
  | [], f => ([], f)
  | i :: is, f =>
    let r := flatExec i f
    let rest := flatRun is r.2
    (r.1 :: rest.1, rest.2)

/-! ### Runs of commands -/

/-- The Word a read of a valid address returns: the cached Word on a hit, the store's on a miss (R102,
R103). -/
def State.visibleWord (s : State) (addr : Addr) : Word :=
  match s.entries.find? fun e => e.addr == addr with
  | some e => e.word
  | none => s.mem.read addr.toNat

/-- The address a command may write in the store: its own, for `CACHE.WRITE` and `STORE` (R122, R151). -/
def storesTo : Instr → Option Addr
  | .cacheWrite addr _ => some addr
  | .store _ b => some b
  | .cacheRead _ | .load _ _ | .add _ _ | .sub _ _ | .nop => none

/-- The address a command may access on the memory port (R163, R122). -/
def portAddr : Instr → Option Addr
  | .cacheRead addr | .cacheWrite addr _ => some addr
  | .load _ b | .store _ b => some b
  | .add _ _ | .sub _ _ | .nop => none

/-- The register a command may write: "mutated only by execution of LOAD, ADD, SUB" (R23). -/
def writesReg : Instr → Option Nat
  | .load a _ | .add a _ | .sub a _ => some a.toNat
  | .cacheRead _ | .cacheWrite _ _ | .store _ _ | .nop => none

/-- A list of commands, one after the other, an error of one not stopping the next (R178). -/
def runInstrs : List Instr → State → Host.Outcome State Fault Refusal
  | [], s => .next s
  | i :: is, s =>
    match exec i s with
    | .next t => runInstrs is t
    | .fault r => .fault r
    | .refused r => .refused r

/-- A list of commands with the answer of each, oldest first. -/
def runReplies : List Instr → State → Host.Outcome (List (Option Reply) × State) Fault Refusal
  | [], s => .next ([], s)
  | i :: is, s =>
    match exec i s with
    | .next t =>
      match runReplies is t with
      | .next (rs, u) => .next (t.reply :: rs, u)
      | .fault r => .fault r
      | .refused r => .refused r
    | .fault r => .fault r
    | .refused r => .refused r

/-- The command of an access of the cache: a read, or a write of a Word. -/
def accessInstr (addr : Addr) : Option Word → Instr
  | none => .cacheRead addr
  | some v => .cacheWrite addr v

/-- The commands of a list of accesses. -/
def accesses (as : List (Addr × Option Word)) : List Instr := as.map fun p => accessInstr p.1 p.2

/-- The cached addresses in recency order, least recently used first. -/
def State.cachedAddrs (s : State) : List Addr := s.entries.map Entry.addr

/-- The different addresses of a history, ordered by their last use (R119). -/
def lastUses (as : List Addr) : List Addr :=
  as.foldl (fun acc p => acc.filter (fun q => q ≠ p) ++ [p]) []

/-- The last `n` of a list. -/
def lastN {α : Type} (n : Nat) (l : List α) : List α := l.drop (l.length - n)

end Sys2Proof.Machine
end

