-- ==== Sys2Proof/Certificates/Slice0/Obligations.lean ====
section
/-! DEFINITION. The statements for the provers, each from the rules of spec/ it names. -/

open Sys2Proof Sys2Proof.Machine

/-! ### Reset, steps and the driver -/

/-- The table of R33 for every session: every Word of the store zero, the cache empty with every slot invalid
and zero, every register zero, the trace empty; `State.reset` is the session with the spec's defaults
`W = 32`, `N = 1024`, `C = 16` (R8). The zero registers are the spec's decision D6, the zero slot fields its
decision D7, the empty cache its own derivation (10_state.md section 10), so the basis is 'derived'; that no action is
supplied and nothing answered is the model's (logs 4 and 6). -/
def Obligations.ResetClearsStoreCacheAndRegisters : Prop :=
  (∀ p : Params,
    (∀ a, (State.resetWith p).mem.read a = 0) ∧
    (State.resetWith p).entries = [] ∧
    (State.resetWith p).cache.count = 0 ∧
    (State.resetWith p).cache.slots.length = p.capacity ∧
    (∀ t ∈ (State.resetWith p).cache.slots, t.valid = false ∧ t.tag = 0 ∧ t.data = 0 ∧ t.rank = 0) ∧
    (∀ (id : Nat) (h : id < 8), (State.resetWith p).regs[id] = 0) ∧
    (State.resetWith p).trace = [] ∧
    (State.resetWith p).params = p ∧
    (State.resetWith p).driver = [] ∧ (State.resetWith p).reply = none) ∧
  State.reset = State.resetWith { wordWidth := 32, storeSize := 1024, capacity := 16 }

/-- Every session the spec allows starts in the machine's invariant, coherent (R33, R27, R28, R137, R118), and no
other session is constructed (R8, U4, U7, U8). -/
def Obligations.ResetEstablishesInvariant : Prop :=
  (∀ p : Params, p.legal → ∃ s, State.construct p = some s ∧ s.Inv ∧ s.Coherent) ∧
  (∀ p : Params, ¬ p.legal → State.construct p = none) ∧
  State.reset.Inv ∧ State.reset.Coherent

/-- A step takes the driver's next action and runs it to its end: a recognised command is `exec` of the
instruction it decodes to, an unrecognised tag answers `UnknownOpcode`, a host action is its own operation, and
with nothing supplied nothing changes (R156, R208, R213). That an idle machine's step changes nothing is the
model's choice (log 5). -/
def Obligations.StepRunsSuppliedAction : Prop :=
  ∀ s : State, s.params.legal →
    (s.driver = [] → step s = .next s) ∧
    (∀ c rest, s.driver = .command c :: rest →
      (∀ i, decode s.params.wordWidth c = .instr i → step s = exec i { s with driver := rest }) ∧
      (∀ tag, decode s.params.wordWidth c = .unknown tag → step s = execUnknown tag { s with driver := rest })) ∧
    (∀ id rest, s.driver = .readReg id :: rest → step s = hostReadReg id { s with driver := rest }) ∧
    (∀ a rest, s.driver = .readMem a :: rest → step s = hostReadMem a { s with driver := rest }) ∧
    (∀ a v rest, s.driver = .writeMem a v :: rest → step s = hostWriteMem a v { s with driver := rest })

/-- A command placed with `withFetchWord` is the very next one to run, read at the session's width of the Word;
at the default width that is the reading of the opcode table's bits (log 4, the model's choice of where a program
comes from). -/
def Obligations.FetchWordRunsNext : Prop :=
  ∀ (s : State) (nbits w : Nat) (i : Instr), s.params.legal →
    (tableInstr s.params.wordWidth nbits w = some i → step (s.withFetchWord nbits w) = exec i s) ∧
    (s.params.wordWidth = 32 → decodeTableWord nbits w = some i → step (s.withFetchWord nbits w) = exec i s)

/-- Every step of a legal session answers a next state: nothing hangs, stops or is undefined (R12, R215); it
takes one action from the supply and leaves `W`, `N` and `C` as they are (R8, R213). -/
def Obligations.EveryStepCompletes : Prop :=
  ∀ s : State, s.params.legal →
    ∃ t, step s = .next t ∧ t.params = s.params ∧ t.driver = s.driver.tail

/-- A session whose parameters R8 excludes has no step: it is refused (U4, U7, U8). The refusal by `step` is
the model's choice (log 11). -/
def Obligations.IllegalParametersAreRefused : Prop :=
  ∀ s : State, s.params.wordWidth = 0 ∨ s.params.storeSize = 0 ∨ 16777216 < s.params.storeSize ∨
      s.params.capacity = 0 →
    step s = .refused .illegalParameters

/-- `HostReadReg(id)` answers `x[id]` and has no side effect; an id outside `[0, 8)` answers `OutOfRange`
(R210, R171). -/
def Obligations.HostReadRegisterHasNoSideEffect : Prop :=
  ∀ (s : State) (id : Nat),
    (∀ h : id < 8, hostReadReg id s = .next { s with reply := some (.ok (some s.regs[id])) }) ∧
    (8 ≤ id → hostReadReg id s = .next { s with reply := some (.err (.outOfRange .reg id)) })

/-- `HostReadMem(addr)` answers the store's own Word, with no look-up, insertion, eviction, reordering or trace
event, and so the latest Word written through the cache (R209). -/
def Obligations.HostReadMemoryBypassesCache : Prop :=
  ∀ (s : State) (a : Nat),
    (a < s.params.storeSize →
      hostReadMem a s = .next { s with reply := some (.ok (some (s.mem.read a))) }) ∧
    (s.params.storeSize ≤ a →
      hostReadMem a s = .next { s with reply := some (.err (.outOfRange .addr a)) }) ∧
    (∀ (addr : Addr) (v : Word), addr.toNat = a → a < s.params.storeSize → s.params.isWord v →
      ∃ t u, exec (.cacheWrite addr v) s = .next t ∧ hostReadMem a t = .next u ∧
        u.reply = some (.ok (some v)))

/-- `HostWriteMem(addr, v)` changes that one Word of the store and nothing else; the cache is not told
(R211). -/
def Obligations.HostWriteMemoryBypassesCache : Prop :=
  ∀ (s : State) (a : Nat) (v : Word), s.params.isWord v →
    (a < s.params.storeSize →
      ∃ m, hostWriteMem a v s = .next { s with mem := m, reply := some (.ok none) } ∧
        ∀ x, m.read x = if x = a then v else s.mem.read x) ∧
    (s.params.storeSize ≤ a →
      hostWriteMem a v s = .next { s with reply := some (.err (.outOfRange .addr a)) })

/-! ### Encodings -/

/-- Words written out from the encodings of 30_encoding.md decode to the instructions they stand for
(95_test_vectors.md section 2.10). -/
def Obligations.WrittenOutWordsDecode : Prop :=
  decodeI32 0x00000000 = .instr (.load 0 0) ∧
  decodeI32 0x07FFFFFF = .instr (.load 7 16777215) ∧
  decodeI32 0x1000001E = .instr (.store 0 30) ∧
  decodeI32 0x2F000007 = .instr (.add 15 7) ∧
  decodeI32 0x33000002 = .instr (.sub 3 2) ∧
  decodeI32 0x4ABCDEF0 = .instr .nop ∧
  decodeI32 0x51000002 = .unknown 5 ∧
  decodeI32 0xF0000000 = .unknown 15 ∧
  decodeCreq (W := 32) 0x000000A00000000 = .cacheRead 10 ∧
  decodeCreq (W := 32) 0x100000A00000005 = .cacheWrite 10 5

/-- `word = (op << 28) | (a << 24) | b`, and the three fields of any word are those numbers (R84). -/
def Obligations.InstructionWordLayout : Prop :=
  (∀ (op a : Nibble) (b : Addr),
    (encodeI32 op a b).toNat = op.toNat * 2 ^ 28 + a.toNat * 2 ^ 24 + b.toNat) ∧
  (∀ w : BitVec 32, (opField w).toNat = w.toNat / 2 ^ 28 ∧ (aField w).toNat = w.toNat / 2 ^ 24 % 2 ^ 4 ∧
    (bField w).toNat = w.toNat % 2 ^ 24)

/-- The layout of CREQ, which MREQ shares, at every width `W` of the Word: `1 + AW + W` bits, `cmd` in bit `AW + W`,
`addr` in bits `AW+W-1 : W`, `wdata` in bits `W-1 : 0`; every one of the values is a legal request, a read ignoring
its `wdata` (R81). -/
def Obligations.EveryRequestIsLegal : Prop :=
  ∀ W : Nat,
    (∀ (cmd : BitVec 1) (addr : Addr) (v : BitVec W),
      (encodeCreq cmd addr v).toNat = cmd.toNat * 2 ^ (24 + W) + addr.toNat * 2 ^ W + v.toNat) ∧
    (∀ q : BitVec (1 + 24 + W),
      (q.toNat < 2 ^ (24 + W) → decodeCreq q = .cacheRead (BitVec.ofNat 24 (q.toNat / 2 ^ W))) ∧
      (2 ^ (24 + W) ≤ q.toNat →
        decodeCreq q = .cacheWrite (BitVec.ofNat 24 (q.toNat / 2 ^ W)) (q.toNat % 2 ^ W))) ∧
    (∀ (addr : Addr) (v : BitVec W), MemOp.read.mreq addr v = encodeCreq 0 addr v ∧
      MemOp.write.mreq addr v = encodeCreq 1 addr v)

/-- The opcode map, by the match and mask of each row: a word is a row's instruction exactly when it matches
the row, and no instruction exactly for tags `0x5` to `0xF`; bit 56 tells the cache commands apart; the all-zero
word is `LOAD R0,0` (R85). -/
def Obligations.OpcodeMapByMatchAndMask : Prop :=
  (∀ w : BitVec 32,
    ((∃ a b, decodeI32 w = .instr (.load a b)) ↔ w &&& 0xF0000000 = 0x00000000) ∧
    ((∃ a b, decodeI32 w = .instr (.store a b)) ↔ w &&& 0xF0000000 = 0x10000000) ∧
    ((∃ a b, decodeI32 w = .instr (.add a b)) ↔ w &&& 0xF0000000 = 0x20000000) ∧
    ((∃ a b, decodeI32 w = .instr (.sub a b)) ↔ w &&& 0xF0000000 = 0x30000000) ∧
    (decodeI32 w = .instr .nop ↔ w &&& 0xF0000000 = 0x40000000) ∧
    ((∃ tag, decodeI32 w = .unknown tag) ↔ 0x50000000 ≤ w.toNat)) ∧
  (∀ q : BitVec 57,
    ((∃ addr, decodeCreq (W := 32) q = .cacheRead addr) ↔ q &&& 0x100000000000000 = 0) ∧
    ((∃ addr v, decodeCreq (W := 32) q = .cacheWrite addr v) ↔ q &&& 0x100000000000000 = 0x100000000000000)) ∧
  decodeI32 0 = .instr (.load 0 0)

/-- The decoder by its cases on `word[31:28]`, the encoder from the same fields, and their agreement at
every width `W` of the Word: on every well-formed instruction and on unknown tags; encode undoes decode on every
word of opcode `0x0` to `0x3`, and on the others up to the ignored fields (R95). What the decoder answers is well
formed. -/
def Obligations.DecodeEncodeAgree : Prop :=
  (∀ w : BitVec 32,
    (opField w = 0 → decodeI32 w = .instr (.load (aField w) (bField w))) ∧
    (opField w = 1 → decodeI32 w = .instr (.store (aField w) (bField w))) ∧
    (opField w = 2 → decodeI32 w = .instr (.add (aField w) (bField w))) ∧
    (opField w = 3 → decodeI32 w = .instr (.sub (aField w) (bField w))) ∧
    (opField w = 4 → decodeI32 w = .instr .nop) ∧
    (5 ≤ (opField w).toNat → decodeI32 w = .unknown (opField w))) ∧
  (∀ (W : Nat) (a : Nibble) (b : Addr),
    encode W (.load a b) = .i32 (encodeI32 0 a b) ∧ encode W (.store a b) = .i32 (encodeI32 1 a b) ∧
    encode W (.add a b) = .i32 (encodeI32 2 a b) ∧ encode W (.sub a b) = .i32 (encodeI32 3 a b) ∧
    encode W .nop = .i32 (encodeI32 4 0 0) ∧ ∀ tag, encodeDecoded W (.unknown tag) = .i32 (encodeI32 tag 0 0)) ∧
  (∀ (W : Nat) (i : Instr), i.wellFormed W = true → decode W (encode W i) = .instr i) ∧
  (∀ (W : Nat) (tag : Nibble), 5 ≤ tag.toNat → decode W (encodeDecoded W (.unknown tag)) = .unknown tag) ∧
  (∀ (W : Nat) (w : BitVec 32), w.toNat < 0x40000000 → encodeDecoded W (decodeI32 w) = .i32 w) ∧
  (∀ (W : Nat) (w : BitVec 32), 0x40000000 ≤ w.toNat →
    encodeDecoded W (decodeI32 w) = .i32 (encodeI32 (opField w) 0 0)) ∧
  (∀ (W : Nat) (c : Command) (i : Instr), decode W c = .instr i → i.wellFormed W = true)

/-- Every well-formed instruction has an assembler line, the line is well formed, and it assembles to that
instruction; any other has none (R93). -/
def Obligations.AssemblyRoundTrip : Prop :=
  ∀ (W : Nat) (i : Instr), i.asm.wellFormed W = i.wellFormed W ∧
    assemble W i.asm = if i.wellFormed W = true then some i else none

/-! ### The cache commands -/

/-- `CACHE.READ addr` whole: a hit returns the cached Word and moves its entry to the most-recently-used end
with no store access; a miss of a valid address reads the store once and inserts, evicting `cache[0]` exactly
when full; an address the store refuses always misses, changes no entry and returns the store's error. Nothing
else of the state changes. The request has `cmd = 0` (R102). -/
def Obligations.CacheReadHitMissOrRefused : Prop :=
  ∀ (s : State) (addr : Addr), s.Inv →
    (∀ i, lookupEntry s.entries addr = some i →
      ∃ e c, s.entries[i]? = some e ∧ e.addr = addr ∧
        exec (.cacheRead addr) s = .next { s with cache := c, reply := some (.ok (some e.word)) } ∧
        c.abs = touchEntry s.entries i) ∧
    (lookupEntry s.entries addr = none → addr.toNat < s.params.storeSize →
      ∃ c, exec (.cacheRead addr) s = .next { s with
          cache := c
          trace := s.trace ++ [.mr addr (s.mem.read addr.toNat)]
          reply := some (.ok (some (s.mem.read addr.toNat))) } ∧
        c.abs = insertEntry s.params.capacity s.entries addr (s.mem.read addr.toNat)) ∧
    (s.params.storeSize ≤ addr.toNat →
      lookupEntry s.entries addr = none ∧
      exec (.cacheRead addr) s = .next { s with
          trace := s.trace ++ [.merr .read addr]
          reply := some (.err (.outOfRange .addr addr.toNat)) }) ∧
    (∀ (W : Nat) (v : BitVec W), decodeCreq (encodeCreq 0 addr v) = .cacheRead addr)

/-- `CACHE.WRITE addr, v` whole: a valid address is written in the store at once, hit or miss; a hit updates
the cached Word and moves its entry to the most-recently-used end; a miss inserts, evicting `cache[0]` exactly
when full; an address the store refuses changes neither store nor cache. Nothing else of the state changes.
The request has `cmd = 1` (R105). -/
def Obligations.CacheWriteThroughAndAllocate : Prop :=
  ∀ (s : State) (addr : Addr) (v : Word), s.Inv → s.params.isWord v →
    (addr.toNat < s.params.storeSize →
      ∃ c m, exec (.cacheWrite addr v) s = .next { s with
          cache := c
          mem := m
          trace := s.trace ++ [.mw addr v]
          reply := some (.ok none) } ∧
        (∀ x, m.read x = if x = addr.toNat then v else s.mem.read x) ∧
        (∀ i, lookupEntry s.entries addr = some i →
          c.abs = touchEntry (setEntryWord s.entries i v) i) ∧
        (lookupEntry s.entries addr = none →
          c.abs = insertEntry s.params.capacity s.entries addr v)) ∧
    (s.params.storeSize ≤ addr.toNat →
      exec (.cacheWrite addr v) s = .next { s with
          trace := s.trace ++ [.merr .write addr]
          reply := some (.err (.outOfRange .addr addr.toNat)) }) ∧
    (∀ (W : Nat) (w : BitVec W), decodeCreq (encodeCreq 1 addr w) = .cacheWrite addr w.toNat)

/-- Write-through coherence: after a write of a valid address the store holds the Word, whatever the cache held
and in every state, and it goes on holding it through any list of commands none of which writes that address,
whatever they evict (R116). -/
def Obligations.WriteThroughCoherence : Prop :=
  ∀ (s : State) (x : Addr) (v : Word), x.toNat < s.params.storeSize → s.params.isWord v →
    ∃ t, exec (.cacheWrite x v) s = .next t ∧ t.mem.read x.toNat = v ∧
      ∀ is : List Instr, (∀ i ∈ is, storesTo i ≠ some x) →
        ∃ u, runInstrs is t = .next u ∧ u.mem.read x.toNat = v

/-- Round-trip: a write followed immediately by a read returns the Word written, with no memory-port access
(R113). -/
def Obligations.WriteThenReadReturnsWord : Prop :=
  ∀ (s : State) (x : Addr) (v : Word), s.Inv → x.toNat < s.params.storeSize → s.params.isWord v →
    ∃ t u, exec (.cacheWrite x v) s = .next t ∧ exec (.cacheRead x) t = .next u ∧
      u.reply = some (.ok (some v)) ∧ u.trace = t.trace

/-- Read stability: two reads of an address return the same Word whatever commands come between, evictions
included, so long as none of them writes that address (R114). Coherence of the starting state stands for "no
direct store write by the host" (R206). -/
def Obligations.RepeatedReadsAgree : Prop :=
  ∀ (s : State) (x : Addr) (is : List Instr), s.Inv → s.Coherent → x.toNat < s.params.storeSize →
    (∀ i ∈ is, storesTo i ≠ some x) →
    ∃ v t u w, exec (.cacheRead x) s = .next t ∧ t.reply = some (.ok (some v)) ∧
      runInstrs is t = .next u ∧ exec (.cacheRead x) u = .next w ∧ w.reply = some (.ok (some v))

/-- Capacity: whatever commands run, the cache never holds more than `C` addresses, nor one address twice
(R112). -/
def Obligations.CapacityNeverExceeded : Prop :=
  ∀ (s : State) (is : List Instr), s.Inv →
    ∃ t, runInstrs is s = .next t ∧ t.cachedAddrs.length ≤ s.params.capacity ∧ t.cachedAddrs.Nodup

/-- LRU correctness: from any state of the invariant, `C` accesses of pairwise different valid addresses leave
exactly those, in that order; a further address evicts the first of them and no other; if the first is accessed
again before, the second is evicted instead (the first itself when `C = 1`) (R115). -/
def Obligations.LeastRecentlyUsedIsEvicted : Prop :=
  ∀ (s : State) (as : List (Addr × Option Word)), s.Inv → as.length = s.params.capacity →
    (as.map Prod.fst).Nodup → (∀ p ∈ as, p.1.toNat < s.params.storeSize) →
    ∃ t, runInstrs (accesses as) s = .next t ∧ t.cachedAddrs = as.map Prod.fst ∧
      (∀ q w, q.toNat < s.params.storeSize → q ∉ as.map Prod.fst →
        ∃ u, exec (accessInstr q w) t = .next u ∧ u.cachedAddrs = (as.map Prod.fst).tail ++ [q]) ∧
      (∀ p rest w, as.map Prod.fst = p :: rest →
        ∃ t', exec (accessInstr p w) t = .next t' ∧ t'.cachedAddrs = rest ++ [p] ∧
          ∀ q w', q.toNat < s.params.storeSize → q ∉ as.map Prod.fst →
            ∃ u, exec (accessInstr q w') t' = .next u ∧ u.cachedAddrs = (rest ++ [p]).tail ++ [q])

/-- The cache holds the (up to) `C` most recently used different addresses, ordered by their last use: after
any accesses of valid addresses, the last `C` of the history that began with the addresses cached before
(R119, an inference of the spec from R101, R102, R105, R108). -/
def Obligations.CacheHoldsLastUsedAddresses : Prop :=
  ∀ (s : State) (as : List (Addr × Option Word)), s.Inv → (∀ p ∈ as, p.1.toNat < s.params.storeSize) →
    ∃ t, runInstrs (accesses as) s = .next t ∧
      t.cachedAddrs = lastN s.params.capacity (lastUses (s.cachedAddrs ++ as.map Prod.fst))

/-! ### The recency-rank tracker -/

/-- Simulation: a cache command of the slot-level machine answers and records what the abstract one does, and
its slots map to the abstract cache (R141, an inference of the spec). -/
def Obligations.SlotLevelSimulatesAbstractCache : Prop :=
  ∀ (s : State) (addr : Addr), s.Inv →
    (∃ t, exec (.cacheRead addr) s = .next t ∧ t.abs = (absCacheRead s.params addr s.abs).2 ∧
      t.reply = some (match (absCacheRead s.params addr s.abs).1 with
        | .ok v => .ok (some v)
        | .err e => .err e)) ∧
    (∀ v, s.params.isWord v → ∃ t, exec (.cacheWrite addr v) s = .next t ∧ t.abs = (absCacheWrite s.params addr v s.abs).2 ∧
      t.reply = some (match (absCacheWrite s.params addr v s.abs).1 with
        | .ok _ => .ok none
        | .err e => .err e))

/-- Slot numbers and the fields of invalid slots are not observable: two states that differ in them only answer
alike, record alike and stay alike under every command (R15, R28, R30). -/
def Obligations.SlotPlacementIsUnobservable : Prop :=
  ∀ (s s' : State) (i : Instr), s.Inv → s'.Inv → s.params = s'.params → s.regs = s'.regs → s.abs = s'.abs →
    ∃ t t', exec i s = .next t ∧ exec i s' = .next t' ∧ t.reply = t'.reply ∧ t.regs = t'.regs ∧
      t.abs = t'.abs

/-- No ties: while the cache is not empty exactly one valid slot has rank 0, and it holds the entry evicted
next, `cache[0]`; exactly one has rank `count - 1`, and it holds the most recently used entry (R142, R139,
R130). -/
def Obligations.VictimIsUnique : Prop :=
  ∀ s : State, s.Inv → 0 < s.cache.count →
    (∃! i : Nat, ∃ t : Slot, s.cache.slots[i]? = some t ∧ t.valid = true ∧ t.rank = 0) ∧
    (∃ i t, s.cache.victim = some i ∧ s.cache.slots[i]? = some t ∧ s.entries.head? = some t.entry) ∧
    (∃! i : Nat, ∃ t : Slot, s.cache.slots[i]? = some t ∧ t.valid = true ∧ t.rank = s.cache.count - 1) ∧
    (∃ i t, s.cache.newest = some i ∧ s.cache.slots[i]? = some t ∧ s.entries.getLast? = some t.entry)

/-- A rank fits its register of `RW = max(1, ceil(log2 C))` bits and never passes `C - 1`, and `count` fits
`ceil(log2(C+1))` bits, so that neither can overflow (R130, R28; log 9). -/
def Obligations.RanksAndCountFitTheirRegisters : Prop :=
  ∀ s : State, s.Inv →
    (∀ t ∈ s.cache.validSlots, t.rank ≤ s.params.capacity - 1 ∧ t.rank < 2 ^ s.params.rankWidth) ∧
    s.cache.count ≤ s.params.capacity ∧ s.cache.count < 2 ^ s.params.countWidth ∧
    s.params.capacity ≤ 2 ^ s.params.rankWidth

/-- A valid slot stays valid for the rest of the session, and `count` never decreases (R143). -/
def Obligations.ValidSlotsStayValid : Prop :=
  ∀ s t : State, s.Inv → step s = .next t →
    s.cache.count ≤ t.cache.count ∧
    ∀ (i : Nat) (x : Slot), s.cache.slots[i]? = some x → x.valid = true →
      ∃ y, t.cache.slots[i]? = some y ∧ y.valid = true

/-! ### The Execution Unit's instructions -/

/-- `LOAD Ra, b` whole: a valid address and register id make one `CACHE.READ b`, whose Word goes to `x[a]` and
nothing else; an out-of-range id is refused after the cache read, whose effects stand; a refused address is
reported first, and changes nothing (R150). -/
def Obligations.LoadReadsThroughCache : Prop :=
  ∀ (s : State) (a : Nibble) (b : Addr), s.Inv →
    (b.toNat < s.params.storeSize →
      ∃ c tr, exec (.cacheRead b) s = .next { s with
            cache := c, trace := tr, reply := some (.ok (some (s.visibleWord b))) } ∧
        (∀ h : a.toNat < 8, exec (.load a b) s = .next { s with
            regs := s.regs.set a.toNat (s.visibleWord b) h
            cache := c
            trace := tr
            reply := some (.ok none) }) ∧
        (8 ≤ a.toNat → exec (.load a b) s = .next { s with
            cache := c
            trace := tr
            reply := some (.err (.outOfRange .reg a.toNat)) })) ∧
    (s.params.storeSize ≤ b.toNat →
      exec (.load a b) s = .next { s with
          trace := s.trace ++ [.merr .read b]
          reply := some (.err (.outOfRange .addr b.toNat)) }) ∧
    decodeI32 (encodeI32 0 a b) = .instr (.load a b)

/-- `STORE Ra, b` whole: an out-of-range id is refused before any cache command; otherwise it is
`CACHE.WRITE b, x[a]`, with exactly one store write of that Word at `b` and no register written; a refused
address changes nothing (R151). -/
def Obligations.StoreWritesThroughCache : Prop :=
  ∀ (s : State) (a : Nibble) (b : Addr), s.Inv →
    (∀ h : a.toNat < 8,
      (b.toNat < s.params.storeSize →
        ∃ c m, exec (.store a b) s = .next { s with
              cache := c
              mem := m
              trace := s.trace ++ [.mw b s.regs[a.toNat]]
              reply := some (.ok none) } ∧
          exec (.cacheWrite b s.regs[a.toNat]) s = exec (.store a b) s ∧
          (∀ x, m.read x = if x = b.toNat then s.regs[a.toNat] else s.mem.read x) ∧
          c.abs.getLast? = some { addr := b, word := s.regs[a.toNat] }) ∧
      (s.params.storeSize ≤ b.toNat →
        exec (.store a b) s = .next { s with
            trace := s.trace ++ [.merr .write b]
            reply := some (.err (.outOfRange .addr b.toNat)) })) ∧
    (8 ≤ a.toNat →
      exec (.store a b) s = .next { s with reply := some (.err (.outOfRange .reg a.toNat)) }) ∧
    decodeI32 (encodeI32 1 a b) = .instr (.store a b)

/-- `ADD Ra, Rb` whole: `x[a]` becomes `(x[b] + x[a]) mod 2^W` and nothing else changes; an out-of-range id is
refused, `b`'s first (R152). -/
def Obligations.AddWritesSumModulo : Prop :=
  ∀ (s : State) (a : Nibble) (b : Addr),
    (∀ (ha : a.toNat < 8) (hb : b.toNat < 8),
      exec (.add a b) s = .next { s with
        regs := s.regs.set a.toNat ((s.regs[b.toNat] + s.regs[a.toNat]) % 2 ^ s.params.wordWidth) ha
        reply := some (.ok none) }) ∧
    (8 ≤ b.toNat →
      exec (.add a b) s = .next { s with reply := some (.err (.outOfRange .reg b.toNat)) }) ∧
    (b.toNat < 8 → 8 ≤ a.toNat →
      exec (.add a b) s = .next { s with reply := some (.err (.outOfRange .reg a.toNat)) }) ∧
    decodeI32 (encodeI32 2 a b) = .instr (.add a b)

/-- `SUB Ra, Rb` whole: `x[a]` becomes `(x[a] - x[b]) mod 2^W`, `2^W` added when it would be negative, and
nothing else changes; an out-of-range id is refused, `a`'s first (R153). The registers hold Words, which the
invariant says. -/
def Obligations.SubWritesDifferenceModulo : Prop :=
  ∀ (s : State) (a : Nibble) (b : Addr), s.Inv →
    (∀ (ha : a.toNat < 8) (hb : b.toNat < 8),
      exec (.sub a b) s = .next { s with
        regs := s.regs.set a.toNat
          (if s.regs[b.toNat] ≤ s.regs[a.toNat] then s.regs[a.toNat] - s.regs[b.toNat]
            else 2 ^ s.params.wordWidth + s.regs[a.toNat] - s.regs[b.toNat]) ha
        reply := some (.ok none) }) ∧
    (8 ≤ a.toNat →
      exec (.sub a b) s = .next { s with reply := some (.err (.outOfRange .reg a.toNat)) }) ∧
    (a.toNat < 8 → 8 ≤ b.toNat →
      exec (.sub a b) s = .next { s with reply := some (.err (.outOfRange .reg b.toNat)) }) ∧
    decodeI32 (encodeI32 3 a b) = .instr (.sub a b)

/-- `NOP` has no effect, whatever its ignored fields hold (R154, R88). -/
def Obligations.NopHasNoEffect : Prop :=
  (∀ s : State, exec .nop s = .next { s with reply := some (.ok none) }) ∧
  (∀ (a : Nibble) (b : Addr), decodeI32 (encodeI32 4 a b) = .instr .nop)

/-- A word whose tag is none of the five answers `UnknownOpcode` with the tag, `err = 2` and
`info = zext_24(op)`, and changes nothing, its operands not examined (R155). -/
def Obligations.UnknownOpcodeReportsTag : Prop :=
  ∀ (s : State) (op a : Nibble) (b : Addr) (rest : List DriverAction), s.params.legal → 5 ≤ op.toNat →
    s.driver = .command (.i32 (encodeI32 op a b)) :: rest →
    step s = .next { s with driver := rest, reply := some (.err (.unknownOpcode op)) } ∧
    (Reply.irsp (.err (.unknownOpcode op))).err = 2 ∧
    (Reply.irsp (.err (.unknownOpcode op))).info.toNat = op.toNat

/-- ADD then SUB of the same registers is an exact inverse, and `SUB Ri,Ri` leaves zero: the laws D2 gives for
wrapping arithmetic (R157). -/
def Obligations.SubUndoesAdd : Prop :=
  ∀ (s : State) (a : Nibble) (b : Addr) (ha : a.toNat < 8), s.Inv → b.toNat < 8 →
    (a.toNat ≠ b.toNat →
      ∃ t u, exec (.add a b) s = .next t ∧ exec (.sub a b) t = .next u ∧ u.regs = s.regs) ∧
    (a.toNat = b.toNat →
      ∃ u, exec (.sub a b) s = .next u ∧ u.regs = s.regs.set a.toNat 0 ha)

/-! ### Errors -/

/-- Which command reports which error, and which of two it reports (R173, R174). -/
def Obligations.ErrorsFollowTheTable : Prop :=
  ∀ (s : State) (i : Instr), s.Inv →
    ∃ t r, exec i s = .next t ∧ t.reply = some r ∧ r.error? = expectedError s.params i

/-- No rollback, and exactly one failing case has something to roll back: a LOAD of a valid address whose
register id is out of range leaves cache and trace as the `CACHE.READ` it made leaves them, its address most
recently used; in every other failing case the cache is as before. Registers and store are as before in all of
them (R176). -/
def Obligations.OnlyFailingLoadLeavesPartialState : Prop :=
  ∀ (s t : State) (i : Instr) (e : MachineError), s.Inv → exec i s = .next t → t.reply = some (.err e) →
    t.regs = s.regs ∧ t.mem = s.mem ∧ t.params = s.params ∧ t.driver = s.driver ∧
    (∀ (a : Nibble) (b : Addr), i = .load a b → b.toNat < s.params.storeSize → 8 ≤ a.toNat →
      e = .outOfRange .reg a.toNat ∧ t.cachedAddrs.getLast? = some b ∧
      ∃ u, exec (.cacheRead b) s = .next u ∧ t.cache = u.cache ∧ t.trace = u.trace) ∧
    ((∀ (a : Nibble) (b : Addr), i = .load a b → s.params.storeSize ≤ b.toNat ∨ a.toNat < 8) →
      t.cache = s.cache)

/-- An error is answered exactly: the Execution Unit's response says which of the two it is, which bound an
`OutOfRange` fell outside, and the offending value unshortened, and is 0 throughout for a command that
completed; the code 3 never occurs (R90, for the answers of every instruction). -/
def Obligations.InstructionResponseIsExact : Prop :=
  ∀ (s t : State) (i : Instr) (r : Reply), s.Inv → exec i s = .next t → t.reply = some r →
    r.irsp.err ≠ 3 ∧
    (∀ v, r = .ok v → r.irsp = { err := 0, kind := 0, info := 0 }) ∧
    (∀ k n, r = .err (.outOfRange k n) →
      r.irsp.err = 1 ∧ r.irsp.kind = (match k with | .addr => 0 | .reg => 1) ∧ r.irsp.info.toNat = n) ∧
    (∀ tag, (Reply.irsp (.err (.unknownOpcode tag))).err = 2 ∧
      (Reply.irsp (.err (.unknownOpcode tag))).kind = 0 ∧
      (Reply.irsp (.err (.unknownOpcode tag))).info.toNat = tag.toNat) ∧
    ((∃ addr, i = .cacheRead addr) ∨ ∃ v, r = .err v ∨ r = .ok none)

/-- The layout of CRSP, of `2 + W` bits: `err` in bits `W+1 : W`, only 0 or 1 on the cache's port; `rdata` in bits
`W-1 : 0`, the Word a successful read returned and otherwise 0; the memory port's MRSP has the same layout (R83). -/
def Obligations.CacheResponseLayout : Prop :=
  ∀ (s : State) (addr : Addr), s.Inv →
    (∃ t r, exec (.cacheRead addr) s = .next t ∧ t.reply = some r ∧
      (r.crsp s.params.wordWidth).toNat =
        if addr.toNat < s.params.storeSize then s.visibleWord addr else 2 ^ s.params.wordWidth) ∧
    (∀ v, ∃ t r, exec (.cacheWrite addr v) s = .next t ∧ t.reply = some r ∧
      (r.crsp s.params.wordWidth).toNat =
        if addr.toNat < s.params.storeSize then 0 else 2 ^ s.params.wordWidth) ∧
    (∀ v, s.params.isWord v → ((MemEvent.mr addr v).mrsp s.params.wordWidth).toNat = v ∧
      ((MemEvent.mw addr v).mrsp s.params.wordWidth).toNat = 0) ∧
    (∀ op, ((MemEvent.merr op addr).mrsp s.params.wordWidth).toNat = 2 ^ s.params.wordWidth)

/-- Nothing is latched: what was answered before, and what the memory port has carried, change neither the
answer nor the effect of the next action (R178, R31). -/
def Obligations.EarlierAnswersAreNotRead : Prop :=
  ∀ (s : State) (r : Option Reply) (tr : List MemEvent), s.params.legal → s.driver ≠ [] →
    ∃ (t : State) (new : List MemEvent), step s = .next { t with trace := s.trace ++ new } ∧
      step { s with reply := r, trace := tr } = .next { t with trace := tr ++ new }

/-! ### Whole-machine frames -/

/-- A register changes only as the destination of LOAD, ADD or SUB (R23). -/
def Obligations.OnlyLoadAddSubWriteRegisters : Prop :=
  ∀ (s t : State) (i : Instr) (id : Nat) (h : id < 8), exec i s = .next t → writesReg i ≠ some id →
    t.regs[id] = s.regs[id]

/-- A Word of the store changes only at the address of a `CACHE.WRITE` or `STORE`, or of the host's own write
(R53, R29, R211). -/
def Obligations.OnlyWritesChangeTheStore : Prop :=
  (∀ (s t : State) (i : Instr) (x : Nat), exec i s = .next t →
    (∀ addr, storesTo i = some addr → addr.toNat ≠ x) → t.mem.read x = s.mem.read x) ∧
  (∀ (s t : State) (x : Nat), step s = .next t → t.mem.read x ≠ s.mem.read x →
    (∃ v, s.driver.head? = some (.writeMem x v)) ∨
    ∃ c i addr, s.driver.head? = some (.command c) ∧ decode s.params.wordWidth c = .instr i ∧ storesTo i = some addr ∧
      addr.toNat = x)

/-- At most one memory-port access per command, at the command's own address: none for a read hit and for ADD,
SUB and NOP, exactly one read for a read miss, exactly one write for a write, none for an eviction (R122, R163,
R56). -/
def Obligations.MemoryPortAccessCounts : Prop :=
  ∀ (s t : State) (i : Instr), s.Inv → exec i s = .next t →
    ∃ new, t.trace = s.trace ++ new ∧ new.length ≤ 1 ∧
      (∀ e ∈ new, portAddr i = some e.addr ∧ (e.op = .write ↔ storesTo i = some e.addr)) ∧
      (∀ addr, i = .cacheRead addr ∨ (∃ a, i = .load a addr) →
        (new = [] ↔ lookupEntry s.entries addr ≠ none)) ∧
      (∀ addr v, i = .cacheWrite addr v → new.length = 1) ∧
      (∀ a addr, i = .store a addr → (new.length = 1 ↔ a.toNat < 8))

/-! ### Invariants and refinement -/

/-- Every step keeps the machine's invariant: the store stays canonical and inside `0 .. N-1`, the valid slots'
tags stay different and in range, their ranks stay a permutation of `0 .. count-1` (R27, R28, R137), and every
register, slot and cell goes on holding a Word of `W` bits (R14). -/
def Obligations.StepKeepsInvariant : Prop :=
  ∀ s t : State, s.Inv → step s = .next t → t.Inv

/-- Every step keeps the cache coherent with the store, given the host's obligation (R118, R206). -/
def Obligations.StepKeepsCoherence : Prop :=
  ∀ s t : State, s.Inv → s.Coherent → s.HostObeys → step s = .next t → t.Coherent

/-- The one hazard: a host write of a different Word at a cached address leaves the cached Word stale. A read of
the address hits and returns the old Word with no store access, the host reads the new one, and a `CACHE.WRITE` of
the address repairs the entry. Through any list of commands none of which writes the address, either the entry is
still there and stale, or at some point it was evicted, and the next read then misses and returns the new Word
(R206). -/
def Obligations.HostWriteBehindCacheIsStale : Prop :=
  ∀ (s : State) (addr : Addr) (w v : Word) (rest : List DriverAction), s.Inv → s.params.isWord v →
    { addr := addr, word := w } ∈ s.entries → v ≠ w → s.driver = .writeMem addr.toNat v :: rest →
    ∃ t, step s = .next t ∧ t.entries = s.entries ∧ ¬ t.Coherent ∧
      (∃ u, hostReadMem addr.toNat t = .next u ∧ u.reply = some (.ok (some v))) ∧
      (∀ x, ∃ u, exec (.cacheWrite addr x) t = .next u ∧ (s.Coherent → u.Coherent)) ∧
      ∀ is : List Instr, (∀ i ∈ is, storesTo i ≠ some addr) →
        (∃ u, runInstrs is t = .next u ∧ { addr := addr, word := w } ∈ u.entries ∧
          ∃ u', exec (.cacheRead addr) u = .next u' ∧ u'.reply = some (.ok (some w)) ∧ u'.trace = u.trace) ∨
        (∃ before after u, is = before ++ after ∧ runInstrs before t = .next u ∧ addr ∉ u.cachedAddrs ∧
          ∃ u', exec (.cacheRead addr) u = .next u' ∧ u'.reply = some (.ok (some v)) ∧
            u'.trace = u.trace ++ [.mr addr v])

/-- Transparency: under coherence the cache is invisible in values. A run of any commands answers, and leaves
registers and store, exactly as the machine with the cache removed does (R121, an inference of the spec). -/
def Obligations.CacheIsTransparentInValues : Prop :=
  ∀ (s : State) (is : List Instr), s.Inv → s.Coherent →
    ∃ t, runReplies is s = .next ((flatRun is s.flat).1.map some, t) ∧ t.flat = (flatRun is s.flat).2
end

