-- ==== Sys2Proof/Laws/State.lean ====
section
/-! SUPPORT. One lemma per field per named update of State, and the reset state's fields. -/

namespace Sys2Proof.Machine

@[simp] theorem State.setRegs_params (s : State) (r : Vector Word 8) : (s.setRegs r).params = s.params := rfl
@[simp] theorem State.setRegs_regs (s : State) (r : Vector Word 8) : (s.setRegs r).regs = r := rfl
@[simp] theorem State.setRegs_cache (s : State) (r : Vector Word 8) : (s.setRegs r).cache = s.cache := rfl
@[simp] theorem State.setRegs_mem (s : State) (r : Vector Word 8) : (s.setRegs r).mem = s.mem := rfl
@[simp] theorem State.setRegs_trace (s : State) (r : Vector Word 8) : (s.setRegs r).trace = s.trace := rfl
@[simp] theorem State.setRegs_reply (s : State) (r : Vector Word 8) : (s.setRegs r).reply = s.reply := rfl
@[simp] theorem State.setRegs_driver (s : State) (r : Vector Word 8) : (s.setRegs r).driver = s.driver := rfl
@[simp] theorem State.setRegs_entries (s : State) (r : Vector Word 8) : (s.setRegs r).entries = s.entries := rfl

@[simp] theorem State.setCache_params (s : State) (c : Cache) : (s.setCache c).params = s.params := rfl
@[simp] theorem State.setCache_regs (s : State) (c : Cache) : (s.setCache c).regs = s.regs := rfl
@[simp] theorem State.setCache_cache (s : State) (c : Cache) : (s.setCache c).cache = c := rfl
@[simp] theorem State.setCache_mem (s : State) (c : Cache) : (s.setCache c).mem = s.mem := rfl
@[simp] theorem State.setCache_trace (s : State) (c : Cache) : (s.setCache c).trace = s.trace := rfl
@[simp] theorem State.setCache_reply (s : State) (c : Cache) : (s.setCache c).reply = s.reply := rfl
@[simp] theorem State.setCache_driver (s : State) (c : Cache) : (s.setCache c).driver = s.driver := rfl
@[simp] theorem State.setCache_entries (s : State) (c : Cache) : (s.setCache c).entries = c.abs := rfl

@[simp] theorem State.setMem_params (s : State) (m : Memory) : (s.setMem m).params = s.params := rfl
@[simp] theorem State.setMem_regs (s : State) (m : Memory) : (s.setMem m).regs = s.regs := rfl
@[simp] theorem State.setMem_cache (s : State) (m : Memory) : (s.setMem m).cache = s.cache := rfl
@[simp] theorem State.setMem_mem (s : State) (m : Memory) : (s.setMem m).mem = m := rfl
@[simp] theorem State.setMem_trace (s : State) (m : Memory) : (s.setMem m).trace = s.trace := rfl
@[simp] theorem State.setMem_reply (s : State) (m : Memory) : (s.setMem m).reply = s.reply := rfl
@[simp] theorem State.setMem_driver (s : State) (m : Memory) : (s.setMem m).driver = s.driver := rfl
@[simp] theorem State.setMem_entries (s : State) (m : Memory) : (s.setMem m).entries = s.entries := rfl

@[simp] theorem State.record_params (s : State) (e : MemEvent) : (s.record e).params = s.params := rfl
@[simp] theorem State.record_regs (s : State) (e : MemEvent) : (s.record e).regs = s.regs := rfl
@[simp] theorem State.record_cache (s : State) (e : MemEvent) : (s.record e).cache = s.cache := rfl
@[simp] theorem State.record_mem (s : State) (e : MemEvent) : (s.record e).mem = s.mem := rfl
@[simp] theorem State.record_trace (s : State) (e : MemEvent) : (s.record e).trace = s.trace ++ [e] := rfl
@[simp] theorem State.record_reply (s : State) (e : MemEvent) : (s.record e).reply = s.reply := rfl
@[simp] theorem State.record_driver (s : State) (e : MemEvent) : (s.record e).driver = s.driver := rfl
@[simp] theorem State.record_entries (s : State) (e : MemEvent) : (s.record e).entries = s.entries := rfl

@[simp] theorem State.setReply_params (s : State) (r : Reply) : (s.setReply r).params = s.params := rfl
@[simp] theorem State.setReply_regs (s : State) (r : Reply) : (s.setReply r).regs = s.regs := rfl
@[simp] theorem State.setReply_cache (s : State) (r : Reply) : (s.setReply r).cache = s.cache := rfl
@[simp] theorem State.setReply_mem (s : State) (r : Reply) : (s.setReply r).mem = s.mem := rfl
@[simp] theorem State.setReply_trace (s : State) (r : Reply) : (s.setReply r).trace = s.trace := rfl
@[simp] theorem State.setReply_reply (s : State) (r : Reply) : (s.setReply r).reply = some r := rfl
@[simp] theorem State.setReply_driver (s : State) (r : Reply) : (s.setReply r).driver = s.driver := rfl
@[simp] theorem State.setReply_entries (s : State) (r : Reply) : (s.setReply r).entries = s.entries := rfl

@[simp] theorem State.setDriver_params (s : State) (d : List DriverAction) : (s.setDriver d).params = s.params := rfl
@[simp] theorem State.setDriver_regs (s : State) (d : List DriverAction) : (s.setDriver d).regs = s.regs := rfl
@[simp] theorem State.setDriver_cache (s : State) (d : List DriverAction) : (s.setDriver d).cache = s.cache := rfl
@[simp] theorem State.setDriver_mem (s : State) (d : List DriverAction) : (s.setDriver d).mem = s.mem := rfl
@[simp] theorem State.setDriver_trace (s : State) (d : List DriverAction) : (s.setDriver d).trace = s.trace := rfl
@[simp] theorem State.setDriver_reply (s : State) (d : List DriverAction) : (s.setDriver d).reply = s.reply := rfl
@[simp] theorem State.setDriver_driver (s : State) (d : List DriverAction) : (s.setDriver d).driver = d := rfl
@[simp] theorem State.setDriver_entries (s : State) (d : List DriverAction) : (s.setDriver d).entries = s.entries := rfl

@[simp] theorem State.setCache_flat (s : State) (c : Cache) : (s.setCache c).flat = s.flat := rfl
@[simp] theorem State.record_flat (s : State) (e : MemEvent) : (s.record e).flat = s.flat := rfl
@[simp] theorem State.setReply_flat (s : State) (r : Reply) : (s.setReply r).flat = s.flat := rfl
@[simp] theorem State.setDriver_flat (s : State) (d : List DriverAction) : (s.setDriver d).flat = s.flat := rfl

/-- A Word is the number on the data lines. -/
@[simp] theorem Params.toWord_of_isWord {p : Params} {v : Nat} (h : p.isWord v) : p.toWord v = v :=
  Nat.mod_eq_of_lt h

/-- The data lines carry a Word, whatever number is put on them. -/
theorem Params.isWord_toWord (p : Params) (v : Nat) : p.isWord (p.toWord v) :=
  Nat.mod_lt _ (Nat.two_pow_pos _)

theorem Params.isWord_zero (p : Params) : p.isWord 0 := Nat.two_pow_pos _

/-- The sum and the difference are Words (R157). -/
theorem wordAdd_lt (W : Nat) (p q : Word) : wordAdd W p q < 2 ^ W := Nat.mod_lt _ (Nat.two_pow_pos _)

theorem wordSub_lt (W : Nat) (p q : Word) : wordSub W p q < 2 ^ W := by
  have hW : (0 : Int) < 2 ^ W := by positivity
  have h0 := Int.emod_nonneg ((p : Int) - q) (Int.ne_of_gt hW)
  have h1 := Int.emod_lt_of_pos ((p : Int) - q) hW
  unfold wordSub
  zify
  rw [Int.toNat_of_nonneg h0]
  exact h1

/-- The difference of two Words: itself, or `2^W` more where it would be negative (R157). -/
theorem wordSub_eq {W p q : Nat} (hp : p < 2 ^ W) (hq : q < 2 ^ W) :
    wordSub W p q = if q ≤ p then p - q else 2 ^ W + p - q := by
  have hM : (2 : Int) ^ W = ((2 ^ W : Nat) : Int) := by push_cast; rfl
  unfold wordSub
  change @Eq Nat _ _
  rw [hM]
  generalize 2 ^ W = M at hp hq
  split_ifs with h
  · rw [Int.emod_eq_of_lt (by omega) (by omega)]; omega
  · rw [← Int.add_emod_right, Int.emod_eq_of_lt (by omega) (by omega)]; omega

/-- The last answer wins: nothing is latched (R178). -/
@[simp] theorem State.setReply_setReply (s : State) (r q : Reply) :
    (s.setReply r).setReply q = s.setReply q := rfl

/-- A command with two outcomes answers the one it has. -/
@[simp] theorem respond_mk (r : Reply) (s : State) : respond (r, s) = .next (s.setReply r) := rfl

@[simp] theorem andThen_ok {α β σ : Type} (v : α) (s : σ) (k : α → σ → Result β × σ) :
    andThen (.ok v, s) k = k v s := rfl

@[simp] theorem andThen_err {α β σ : Type} (e : MachineError) (s : σ) (k : α → σ → Result β × σ) :
    andThen (.err e, s) k = (.err e, s) := rfl

@[simp] theorem raise_eq {α σ : Type} (e : MachineError) (s : σ) :
    (raise e s : Result α × σ) = (.err e, s) := rfl

end Sys2Proof.Machine
end

