-- ==== Sys2Proof/Laws/Memory.lean ====
section
/-! SUPPORT. The laws of the Backing Store's memory: read after write, and the canonical form kept by every
memory operation. -/

namespace Sys2Proof.Machine

theorem Memory.read_insertCell (m : Memory) (a x : Nat) (v : Word) :
    (m.insertCell a v).read x = if x = a then v else m.read x := by
  induction m with
  | nil => simp [Memory.insertCell, Memory.read]
  | cons c m ih =>
    obtain ⟨b, w⟩ := c
    unfold Memory.insertCell
    split_ifs <;> simp_all [Memory.read]

theorem Memory.read_erase (m : Memory) (a x : Nat) :
    (m.erase a).read x = if x = a then Config.resetWord else m.read x := by
  induction m with
  | nil => simp [Memory.erase, Memory.read]
  | cons c m ih =>
    obtain ⟨b, w⟩ := c
    simp only [Memory.erase] at ih
    by_cases hb : b = a
    · simp only [Memory.erase, List.filter_cons, hb, Memory.read]
      simp only [ne_eq, not_true_eq_false, decide_false, Bool.false_eq_true, if_false]
      rw [ih]; split_ifs <;> rfl
    · simp only [Memory.erase, List.filter_cons, Memory.read]
      simp only [ne_eq, hb, not_false_eq_true, decide_true, if_true, Memory.read]
      rw [ih]
      split_ifs <;> simp_all

/-- The one law of reads and writes: the Word just written there, every other address as before. -/
@[simp] theorem Memory.read_write (m : Memory) (a x : Nat) (v : Word) :
    (m.write a v).read x = if x = a then v else m.read x := by
  unfold Memory.write
  split_ifs with h1 h2 h2
  · rw [Memory.read_erase, if_pos h2, h1]
  · rw [Memory.read_erase, if_neg h2]
  · rw [Memory.read_insertCell, if_pos h2]
  · rw [Memory.read_insertCell, if_neg h2]

theorem Memory.mem_insertCell {m : Memory} {a : Nat} {v : Word} {c : Nat × Word}
    (h : c ∈ m.insertCell a v) : c = (a, v) ∨ c ∈ m := by
  induction m with
  | nil => simpa [Memory.insertCell] using h
  | cons d m ih =>
    obtain ⟨b, w⟩ := d
    unfold Memory.insertCell at h
    split_ifs at h <;> simp only [List.mem_cons] at h ⊢ <;> tauto

theorem Memory.pairwise_insertCell {m : Memory} (a : Nat) (v : Word)
    (h : m.Pairwise fun c d => c.1 < d.1) : (m.insertCell a v).Pairwise fun c d => c.1 < d.1 := by
  induction m with
  | nil => simp [Memory.insertCell]
  | cons d m ih =>
    obtain ⟨b, w⟩ := d
    have hm := List.pairwise_cons.1 h
    unfold Memory.insertCell
    split_ifs with h1 h2
    · refine List.pairwise_cons.2 ⟨fun c hc => ?_, h⟩
      rcases List.mem_cons.1 hc with rfl | hc
      · exact h1
      · exact Nat.lt_trans h1 (hm.1 c hc)
    · subst h2
      exact List.pairwise_cons.2 ⟨hm.1, hm.2⟩
    · refine List.pairwise_cons.2 ⟨fun c hc => ?_, ih hm.2⟩
      rcases Memory.mem_insertCell hc with rfl | hc
      · exact Nat.lt_of_le_of_ne (Nat.le_of_not_lt h1) (Ne.symm h2)
      · exact hm.1 c hc

theorem Memory.mem_write {m : Memory} {a : Nat} {v : Word} {c : Nat × Word} (h : c ∈ m.write a v) :
    c = (a, v) ∨ c ∈ m := by
  unfold Memory.write at h
  split_ifs at h
  · exact .inr (List.mem_of_mem_filter h)
  · exact Memory.mem_insertCell h

/-- What is true of every listed Word and of the reset content is true of every Word read. -/
theorem Memory.read_of_all {P : Word → Prop} {m : Memory} (h0 : P Config.resetWord)
    (hm : ∀ c ∈ m, P c.2) (a : Nat) : P (m.read a) := by
  induction m with
  | nil => exact h0
  | cons c m ih =>
    unfold Memory.read
    split_ifs
    · exact hm c List.mem_cons_self
    · exact ih fun d hd => hm d (List.mem_cons_of_mem _ hd)

/-- A write keeps the canonical form. -/
theorem Memory.wf_write {m : Memory} (a : Nat) (v : Word) (h : m.wf) : (m.write a v).wf := by
  unfold Memory.write
  split_ifs with hv
  · exact ⟨h.1.filter _, fun c hc => h.2 c (List.mem_of_mem_filter hc)⟩
  · refine ⟨Memory.pairwise_insertCell a v h.1, fun c hc => ?_⟩
    rcases Memory.mem_insertCell hc with rfl | hc
    · exact hv
    · exact h.2 c hc

/-- A write inside the store lists nothing outside it. -/
theorem Memory.within_write {m : Memory} {n : Nat} (a : Nat) (v : Word) (ha : a < n)
    (h : m.within n) : (m.write a v).within n := by
  unfold Memory.write
  split_ifs with hv
  · exact fun c hc => h c (List.mem_of_mem_filter hc)
  · intro c hc
    rcases Memory.mem_insertCell hc with rfl | hc
    · exact ha
    · exact h c hc

/-- Canonical stores that read alike are equal: the form is a normal form. -/
theorem Memory.eq_of_read_eq {m n : Memory} (hm : m.wf) (hn : n.wf) (h : ∀ a, m.read a = n.read a) :
    m = n := by
  have below : ∀ {l : Memory} {a : Nat}, (∀ c ∈ l, a < c.1) → l.read a = Config.resetWord := by
    intro l a hl
    induction l with
    | nil => rfl
    | cons c l ih =>
      have := hl c List.mem_cons_self
      simp only [Memory.read]
      rw [if_neg (by omega), ih fun d hd => hl d (List.mem_cons_of_mem _ hd)]
  induction m generalizing n with
  | nil =>
    cases n with
    | nil => rfl
    | cons d n =>
      have := h d.1
      simp only [Memory.read, if_true] at this
      exact absurd this.symm (hn.2 d List.mem_cons_self)
  | cons c m ih =>
    cases n with
    | nil =>
      have := h c.1
      simp only [Memory.read, if_true] at this
      exact absurd this (hm.2 c List.mem_cons_self)
    | cons d n =>
      have hmc := List.pairwise_cons.1 hm.1
      have hnd := List.pairwise_cons.1 hn.1
      have hcd : c.1 = d.1 := by
        rcases Nat.lt_trichotomy c.1 d.1 with hlt | heq | hgt
        · have h1 := h c.1
          have h2 : Memory.read (d :: n) c.1 = Config.resetWord := by
            refine below fun e he => ?_
            rcases List.mem_cons.1 he with rfl | he
            · exact hlt
            · exact Nat.lt_trans hlt (hnd.1 e he)
          rw [h2] at h1
          simp only [Memory.read, if_true] at h1
          exact absurd h1 (hm.2 c List.mem_cons_self)
        · exact heq
        · have h1 := h d.1
          have h2 : Memory.read (c :: m) d.1 = Config.resetWord := by
            refine below fun e he => ?_
            rcases List.mem_cons.1 he with rfl | he
            · exact hgt
            · exact Nat.lt_trans hgt (hmc.1 e he)
          rw [h2] at h1
          simp only [Memory.read, if_true] at h1
          exact absurd h1.symm (hn.2 d List.mem_cons_self)
      have hw : c.2 = d.2 := by
        have := h c.1
        simp only [Memory.read, if_true] at this
        rwa [if_pos hcd] at this
      have hcd' : c = d := Prod.ext hcd hw
      subst hcd'
      congr 1
      refine ih ⟨hmc.2, fun e he => hm.2 e (List.mem_cons_of_mem _ he)⟩
        ⟨hnd.2, fun e he => hn.2 e (List.mem_cons_of_mem _ he)⟩ fun a => ?_
      by_cases ha : a = c.1
      · subst ha
        rw [below fun e he => hmc.1 e he, below fun e he => hnd.1 e he]
      · have := h a
        simpa [Memory.read, ha] using this

end Sys2Proof.Machine
end

