-- ==== Sys2Proof/Laws/Ops.lean ====
section
/-! SUPPORT. What each operation over registers, store and memory port answers: one lemma for a valid operand,
one for a refused one. -/

namespace Sys2Proof.Machine

theorem regGet_of_lt {r : Vector Word 8} {id : Nat} (h : id < 8) : regGet r id = .ok r[id] := by
  simp [regGet, h]

theorem regGet_of_ge {r : Vector Word 8} {id : Nat} (h : 8 ≤ id) :
    regGet r id = .err (.outOfRange .reg id) := by
  simp [regGet, Nat.not_lt.2 h]

theorem regSet_of_lt {r : Vector Word 8} {id : Nat} (v : Word) (h : id < 8) :
    regSet r id v = .ok (r.set id v) := by
  simp [regSet, h]

theorem regSet_of_ge {r : Vector Word 8} {id : Nat} (v : Word) (h : 8 ≤ id) :
    regSet r id v = .err (.outOfRange .reg id) := by
  simp [regSet, Nat.not_lt.2 h]

theorem readReg_of_lt {s : State} {id : Nat} (h : id < 8) : readReg id s = (.ok s.regs[id], s) := by
  simp [readReg, regGet_of_lt h]

theorem readReg_of_ge {s : State} {id : Nat} (h : 8 ≤ id) :
    readReg id s = (.err (.outOfRange .reg id), s) := by
  simp [readReg, regGet_of_ge h]

theorem writeReg_of_lt {s : State} {id : Nat} (v : Word) (h : id < 8) :
    writeReg id v s = (.ok (), s.setRegs (s.regs.set id v)) := by
  simp [writeReg, regSet_of_lt v h]

theorem writeReg_of_ge {s : State} {id : Nat} (v : Word) (h : 8 ≤ id) :
    writeReg id v s = (.err (.outOfRange .reg id), s) := by
  simp [writeReg, regSet_of_ge v h]

theorem storeRead_of_lt {p : Params} {m : Memory} {a : Nat} (h : a < p.storeSize) :
    storeRead p m a = .ok (m.read a) := by
  simp [storeRead, h]

theorem storeRead_of_ge {p : Params} {m : Memory} {a : Nat} (h : p.storeSize ≤ a) :
    storeRead p m a = .err (.outOfRange .addr a) := by
  simp [storeRead, Nat.not_lt.2 h]

theorem storeWrite_of_lt {p : Params} {m : Memory} {a : Nat} (v : Word) (h : a < p.storeSize) :
    storeWrite p m a v = .ok (m.write a v) := by
  simp [storeWrite, h]

theorem storeWrite_of_ge {p : Params} {m : Memory} {a : Nat} (v : Word) (h : p.storeSize ≤ a) :
    storeWrite p m a v = .err (.outOfRange .addr a) := by
  simp [storeWrite, Nat.not_lt.2 h]

/-- `MemRead` at a valid address (R52). -/
theorem memRead_of_lt {s : State} {a : Addr} (h : a.toNat < s.params.storeSize) :
    memRead a s = (.ok (s.mem.read a.toNat), s.record (.mr a (s.mem.read a.toNat))) := by
  simp [memRead, storeRead_of_lt h]

/-- `MemRead` at an address the store refuses (R52). -/
theorem memRead_of_ge {s : State} {a : Addr} (h : s.params.storeSize ≤ a.toNat) :
    memRead a s = (.err (.outOfRange .addr a.toNat), s.record (.merr .read a)) := by
  simp [memRead, storeRead_of_ge h]

/-- `MemWrite` at a valid address (R53). -/
theorem memWrite_of_lt {s : State} {a : Addr} (v : Word) (h : a.toNat < s.params.storeSize) :
    memWrite a v s = (.ok (), (s.setMem (s.mem.write a.toNat v)).record (.mw a v)) := by
  simp [memWrite, storeWrite_of_lt v h]

/-- `MemWrite` at an address the store refuses (R53). -/
theorem memWrite_of_ge {s : State} {a : Addr} (v : Word) (h : s.params.storeSize ≤ a.toNat) :
    memWrite a v s = (.err (.outOfRange .addr a.toNat), s.record (.merr .write a)) := by
  simp [memWrite, storeWrite_of_ge v h]

end Sys2Proof.Machine
end

