-- ==== Sys2Proof/Laws/Tracker.lean ====
section
/-! SUPPORT. The recency-rank tracker: each update keeps the invariants of R28 (R137), and the abstraction
function takes each to the abstract operation it implements (R141). -/

namespace Sys2Proof.Machine

/-- `Cache.Ok` said slot by slot, which is how the updates are proved. -/
structure Cache.Tracks (c : Cache) (capacity : Nat) : Prop where
  length_eq : c.slots.length = capacity
  count_eq : c.slots.countP (fun t => t.valid) = c.count
  tag_inj : ∀ (i j : Nat) (s t : Slot), c.slots[i]? = some s → c.slots[j]? = some t → s.valid = true → t.valid = true →
    s.tag = t.tag → i = j
  rank_inj : ∀ (i j : Nat) (s t : Slot), c.slots[i]? = some s → c.slots[j]? = some t → s.valid = true → t.valid = true →
    s.rank = t.rank → i = j
  rank_lt : ∀ (i : Nat) (t : Slot), c.slots[i]? = some t → t.valid = true → t.rank < c.count

theorem nodup_map_valid {β : Type} (f : Slot → β) (l : List Slot) :
    ((l.filter fun t => t.valid).map f).Nodup ↔
      ∀ (i j : Nat) (s t : Slot), l[i]? = some s → l[j]? = some t → s.valid = true → t.valid = true →
        f s = f t → i = j := by
  rw [List.Nodup, List.pairwise_map, List.pairwise_filter, List.pairwise_iff_getElem]
  constructor
  · intro h i j s t hi hj hs ht hst
    obtain ⟨hi', rfl⟩ := List.getElem?_eq_some_iff.1 hi
    obtain ⟨hj', rfl⟩ := List.getElem?_eq_some_iff.1 hj
    rcases Nat.lt_trichotomy i j with hlt | heq | hgt
    · exact absurd hst (h i j hi' hj' hlt hs ht)
    · exact heq
    · exact absurd hst.symm (h j i hj' hi' hgt ht hs)
  · intro h i j hi hj hij hs ht hst
    exact absurd (h i j _ _ (List.getElem?_eq_getElem hi) (List.getElem?_eq_getElem hj) hs ht hst)
      (Nat.ne_of_lt hij)

theorem Cache.ok_iff_tracks {c : Cache} {n : Nat} : c.Ok n ↔ c.Tracks n := by
  constructor
  · rintro ⟨h1, h2, h3, h4⟩
    refine ⟨h1, ?_, (nodup_map_valid _ _).1 h3, (nodup_map_valid _ _).1 ?_, ?_⟩
    · rw [List.countP_eq_length_filter]; exact h2
    · exact (h4.nodup_iff).2 List.nodup_range
    · intro i t hi ht
      have hmem : t.rank ∈ c.validSlots.map Slot.rank :=
        List.mem_map_of_mem (List.mem_filter.2 ⟨List.mem_of_getElem? hi, ht⟩)
      exact List.mem_range.1 (h4.mem_iff.1 hmem)
  · intro h
    have hlen : c.validSlots.length = c.count := by
      rw [← h.count_eq, List.countP_eq_length_filter]; rfl
    refine ⟨h.length_eq, hlen, (nodup_map_valid _ _).2 h.tag_inj, ?_⟩
    have hn : (c.validSlots.map Slot.rank).Nodup := (nodup_map_valid _ _).2 h.rank_inj
    refine (List.subperm_of_subset hn ?_).perm_of_length_le (by simp [hlen])
    intro k hk
    obtain ⟨t, ht, rfl⟩ := List.mem_map.1 hk
    obtain ⟨hmem, hv⟩ := List.mem_filter.1 ht
    obtain ⟨i, hi⟩ := List.getElem?_of_mem hmem
    exact List.mem_range.2 (h.rank_lt i t hi hv)

/-- Every rank below `count` is some valid slot's (RANK-PERM, R130). -/
theorem Cache.Tracks.rank_surj {c : Cache} {n : Nat} (h : c.Tracks n) {k : Nat} (hk : k < c.count) :
    ∃ (i : Nat) (t : Slot), c.slots[i]? = some t ∧ t.valid = true ∧ t.rank = k := by
  have hp := (Cache.ok_iff_tracks.2 h).2.2.2
  obtain ⟨t, ht, hr⟩ := List.mem_map.1 (hp.mem_iff.2 (List.mem_range.2 hk))
  obtain ⟨hmem, hv⟩ := List.mem_filter.1 ht
  obtain ⟨i, hi⟩ := List.getElem?_of_mem hmem
  exact ⟨i, t, hi, hv, hr⟩

theorem Cache.Tracks.slotOfRank {c : Cache} {n i : Nat} {t : Slot} (h : c.Tracks n)
    (hi : c.slots[i]? = some t) (hv : t.valid = true) : c.slotOfRank t.rank = some t := by
  unfold Cache.slotOfRank
  cases hf : c.slots.find? fun u => u.valid && u.rank == t.rank with
  | none =>
    have := List.find?_eq_none.1 hf t (List.mem_of_getElem? hi)
    simp [hv] at this
  | some u =>
    have hu := List.find?_some hf
    simp only [Bool.and_eq_true, beq_iff_eq] at hu
    obtain ⟨j, hj⟩ := List.getElem?_of_mem (List.mem_of_find?_eq_some hf)
    have := h.rank_inj j i u t hj hi hu.1 hv hu.2
    subst this
    rw [hj] at hi
    exact hi

theorem Cache.Tracks.abs_eq_map {c : Cache} {n : Nat} (h : c.Tracks n) :
    c.abs = (List.range c.count).map
      fun k => (c.slotOfRank k).elim { addr := 0, word := 0 } Slot.entry := by
  rw [Cache.abs, ← List.filterMap_eq_map]
  refine List.filterMap_congr fun k hk => ?_
  obtain ⟨i, t, hi, hv, rfl⟩ := h.rank_surj (List.mem_range.1 hk)
  simp [h.slotOfRank hi hv]

/-- The abstract cache has one entry per valid slot. -/
theorem Cache.Tracks.abs_length {c : Cache} {n : Nat} (h : c.Tracks n) : c.abs.length = c.count := by
  rw [h.abs_eq_map]; simp

/-- A valid slot's entry stands in the abstract cache at its rank (R130, R140). -/
theorem Cache.Tracks.abs_at {c : Cache} {n i : Nat} {t : Slot} (h : c.Tracks n)
    (hi : c.slots[i]? = some t) (hv : t.valid = true) : c.abs[t.rank]? = some t.entry := by
  rw [h.abs_eq_map, List.getElem?_map, List.getElem?_range (h.rank_lt i t hi hv)]
  simp [h.slotOfRank hi hv]

/-- What determines the abstract cache: its length, and every valid slot's entry at its rank. -/
theorem Cache.Tracks.abs_eq {c : Cache} {n : Nat} (h : c.Tracks n) {l : List Entry}
    (hl : l.length = c.count)
    (hs : ∀ (i : Nat) (t : Slot), c.slots[i]? = some t → t.valid = true → l[t.rank]? = some t.entry) : c.abs = l := by
  refine List.ext_getElem? fun k => ?_
  by_cases hk : k < c.count
  · obtain ⟨i, t, hi, hv, rfl⟩ := h.rank_surj hk
    rw [h.abs_at hi hv, hs i t hi hv]
  · rw [List.getElem?_eq_none (by rw [h.abs_length]; omega), List.getElem?_eq_none (by omega)]

/-- Every entry of the abstract cache is a valid slot's. -/
theorem Cache.Tracks.mem_abs {c : Cache} {n : Nat} (h : c.Tracks n) {e : Entry} :
    e ∈ c.abs ↔ ∃ (i : Nat) (t : Slot), c.slots[i]? = some t ∧ t.valid = true ∧ t.entry = e := by
  constructor
  · intro he
    obtain ⟨k, hk⟩ := List.getElem?_of_mem he
    have hlt : k < c.count := by
      rw [← h.abs_length]; exact (List.getElem?_eq_some_iff.1 hk).1
    obtain ⟨i, t, hi, hv, rfl⟩ := h.rank_surj hlt
    rw [h.abs_at hi hv] at hk
    exact ⟨i, t, hi, hv, Option.some.inj hk⟩
  · rintro ⟨i, t, hi, hv, rfl⟩
    exact List.mem_of_getElem? (h.abs_at hi hv)

/-- INV-UNIQ: no address appears twice in the abstract cache (R27). -/
theorem Cache.Tracks.abs_addr_inj {c : Cache} {n i j : Nat} {d e : Entry} (h : c.Tracks n)
    (hi : c.abs[i]? = some d) (hj : c.abs[j]? = some e) (hde : d.addr = e.addr) : i = j := by
  have hi' : i < c.count := by rw [← h.abs_length]; exact (List.getElem?_eq_some_iff.1 hi).1
  have hj' : j < c.count := by rw [← h.abs_length]; exact (List.getElem?_eq_some_iff.1 hj).1
  obtain ⟨p, s, hp, hs, rfl⟩ := h.rank_surj hi'
  obtain ⟨q, t, hq, ht, rfl⟩ := h.rank_surj hj'
  rw [h.abs_at hp hs] at hi
  rw [h.abs_at hq ht] at hj
  obtain rfl := Option.some.inj hi
  obtain rfl := Option.some.inj hj
  have := h.tag_inj p q s t hp hq hs ht hde
  subst this
  rw [hp] at hq
  rw [Option.some.inj hq]

/-! ### Lookup -/

/-- A hit names a valid slot with that tag (R131). -/
theorem Cache.lookup_some {c : Cache} {addr : Addr} {h : Nat} (hl : c.lookup addr = some h) :
    ∃ t : Slot, c.slots[h]? = some t ∧ t.valid = true ∧ t.tag = addr := by
  obtain ⟨hlt, hp, -⟩ := List.findIdx?_eq_some_iff_getElem.1 hl
  simp only [Slot.hits, Bool.and_eq_true, beq_iff_eq] at hp
  exact ⟨_, List.getElem?_eq_getElem hlt, hp.1, hp.2⟩

/-- A miss means no valid slot has that tag (R131). -/
theorem Cache.lookup_none {c : Cache} {addr : Addr} (hl : c.lookup addr = none) :
    ∀ (i : Nat) (t : Slot), c.slots[i]? = some t → t.valid = true → t.tag ≠ addr := by
  intro i t hi hv ht
  have := List.findIdx?_eq_none_iff.1 hl t (List.mem_of_getElem? hi)
  simp [Slot.hits, hv, ht] at this

theorem lookupEntry_eq_some {es : List Entry} {addr : Addr} {i : Nat} {e : Entry}
    (hi : es[i]? = some e) (he : e.addr = addr)
    (hu : ∀ (j : Nat) (d : Entry), es[j]? = some d → d.addr = addr → j = i) : lookupEntry es addr = some i := by
  obtain ⟨hlt, rfl⟩ := List.getElem?_eq_some_iff.1 hi
  refine List.findIdx?_eq_some_iff_getElem.2 ⟨hlt, by simp [he], fun j hj hja => ?_⟩
  have := hu j es[j] (List.getElem?_eq_getElem (by omega)) (by simpa using hja)
  omega

theorem lookupEntry_some {es : List Entry} {addr : Addr} {i : Nat}
    (h : lookupEntry es addr = some i) : ∃ e : Entry, es[i]? = some e ∧ e.addr = addr := by
  obtain ⟨hlt, hp, -⟩ := List.findIdx?_eq_some_iff_getElem.1 h
  exact ⟨es[i], List.getElem?_eq_getElem hlt, by simpa using hp⟩

theorem lookupEntry_none {es : List Entry} {addr : Addr} :
    lookupEntry es addr = none ↔ ∀ e ∈ es, e.addr ≠ addr := by
  simp [lookupEntry, List.findIdx?_eq_none_iff]

/-- The slot lookup implements `Lookup` (R131, R100): the index is the hit slot's rank. -/
theorem Cache.Tracks.lookupEntry_abs {c : Cache} {n : Nat} (h : c.Tracks n) (addr : Addr) :
    lookupEntry c.abs addr = (c.lookup addr).bind fun i => c.slots[i]?.map Slot.rank := by
  cases hl : c.lookup addr with
  | none =>
    refine lookupEntry_none.2 fun e he => ?_
    obtain ⟨i, t, hi, hv, rfl⟩ := h.mem_abs.1 he
    exact Cache.lookup_none hl i t hi hv
  | some i =>
    obtain ⟨t, hi, hv, rfl⟩ := Cache.lookup_some hl
    simp only [Option.bind_some, hi, Option.map_some]
    exact lookupEntry_eq_some (h.abs_at hi hv) rfl
      fun j d hj hd => h.abs_addr_inj hj (h.abs_at hi hv) hd

/-! ### Touch -/

theorem countP_valid_mapIdx (l : List Slot) (f : Nat → Slot → Slot)
    (hf : ∀ j t, (f j t).valid = t.valid) :
    (l.mapIdx f).countP (fun t => t.valid) = l.countP fun t => t.valid := by
  have key : (l.mapIdx f).map (fun t => t.valid) = l.map fun t => t.valid := by
    refine List.ext_getElem? fun i => ?_
    simp only [List.getElem?_map, List.getElem?_mapIdx, Option.map_map]
    congr 1
    funext t
    exact hf i t
  have := congrArg (List.countP id) key
  simpa [List.countP_map, Function.comp_def] using this

@[simp] theorem Slot.touched_valid (h r n j : Nat) (t : Slot) : (t.touched h r n j).valid = t.valid := by
  unfold Slot.touched; split_ifs <;> rfl

@[simp] theorem Slot.touched_tag (h r n j : Nat) (t : Slot) : (t.touched h r n j).tag = t.tag := by
  unfold Slot.touched; split_ifs <;> rfl

@[simp] theorem Slot.touched_data (h r n j : Nat) (t : Slot) : (t.touched h r n j).data = t.data := by
  unfold Slot.touched; split_ifs <;> rfl

/-- The new rank of a valid slot after a touch (R132). -/
theorem Slot.touched_rank {h r n j : Nat} {t : Slot} (hv : t.valid = true) :
    (t.touched h r n j).rank = if j = h then n - 1 else if r < t.rank then t.rank - 1 else t.rank := by
  unfold Slot.touched; simp only [hv, true_and]; split_ifs <;> rfl

theorem Cache.rankTouch_slot {c : Cache} {h i : Nat} {th t : Slot} (hh : c.slots[h]? = some th) :
    (c.rankTouch h).slots[i]? = some t ↔
      ∃ u : Slot, c.slots[i]? = some u ∧ t = u.touched h th.rank c.count i := by
  simp only [Cache.rankTouch, hh, List.getElem?_mapIdx, Option.map_eq_some_iff]
  exact ⟨fun ⟨u, hu, e⟩ => ⟨u, hu, e.symm⟩, fun ⟨u, hu, e⟩ => ⟨u, hu, e.symm⟩⟩

theorem Cache.rankTouch_count (c : Cache) (h : Nat) : (c.rankTouch h).count = c.count := by
  unfold Cache.rankTouch; split <;> rfl

/-- `RankTouch` keeps the invariants (R137). -/
theorem Cache.Tracks.rankTouch {c : Cache} {n h : Nat} {th : Slot} (ht : c.Tracks n)
    (hh : c.slots[h]? = some th) (hv : th.valid = true) : (c.rankTouch h).Tracks n := by
  have hcount := Cache.rankTouch_count c h
  have hrlt := ht.rank_lt h th hh hv
  refine ⟨?_, ?_, ?_, ?_, ?_⟩
  · simp [Cache.rankTouch, hh, ht.length_eq]
  · rw [hcount, ← ht.count_eq]
    simp only [Cache.rankTouch, hh]
    exact countP_valid_mapIdx _ _ fun _ _ => Slot.touched_valid ..
  · intro i j s t hi hj hs ht' hst
    obtain ⟨u, hu, rfl⟩ := (Cache.rankTouch_slot hh).1 hi
    obtain ⟨w, hw, rfl⟩ := (Cache.rankTouch_slot hh).1 hj
    simp only [Slot.touched_valid, Slot.touched_tag] at hs ht' hst
    exact ht.tag_inj i j u w hu hw hs ht' hst
  · intro i j s t hi hj hs ht' hst
    obtain ⟨u, hu, rfl⟩ := (Cache.rankTouch_slot hh).1 hi
    obtain ⟨w, hw, rfl⟩ := (Cache.rankTouch_slot hh).1 hj
    simp only [Slot.touched_valid] at hs ht'
    rw [Slot.touched_rank hs, Slot.touched_rank ht'] at hst
    have h1 := ht.rank_lt i u hu hs
    have h2 := ht.rank_lt j w hw ht'
    have h3 := fun e => ht.rank_inj i j u w hu hw hs ht' e
    have h4 := fun e => ht.rank_inj i h u th hu hh hs hv e
    have h5 := fun e => ht.rank_inj j h w th hw hh ht' hv e
    split_ifs at hst <;> omega
  · intro i t hi hv'
    obtain ⟨u, hu, rfl⟩ := (Cache.rankTouch_slot hh).1 hi
    simp only [Slot.touched_valid] at hv'
    have := ht.rank_lt i u hu hv'
    rw [Slot.touched_rank hv', hcount]
    split_ifs <;> omega

/-- `RankTouch(h)` implements `Touch(rank[h])` (R132, R141). -/
theorem Cache.Tracks.abs_rankTouch {c : Cache} {n h : Nat} {th : Slot} (ht : c.Tracks n)
    (hh : c.slots[h]? = some th) (hv : th.valid = true) :
    (c.rankTouch h).abs = touchEntry c.abs th.rank := by
  have hrlt := ht.rank_lt h th hh hv
  have hr := ht.abs_at hh hv
  simp only [touchEntry, hr]
  refine (ht.rankTouch hh hv).abs_eq ?_ ?_
  · rw [Cache.rankTouch_count, List.length_append, List.length_eraseIdx, ht.abs_length]
    simp [hrlt]; omega
  · intro i t hi hv'
    obtain ⟨u, hu, rfl⟩ := (Cache.rankTouch_slot hh).1 hi
    simp only [Slot.touched_valid] at hv'
    have hult := ht.rank_lt i u hu hv'
    have hlen : (c.abs.eraseIdx th.rank).length = c.count - 1 := by
      rw [List.length_eraseIdx, ht.abs_length, if_pos hrlt]
    have hent : (u.touched h th.rank c.count i).entry = u.entry := by simp [Slot.entry]
    rw [hent, Slot.touched_rank hv']
    have huabs := ht.abs_at hu hv'
    by_cases hih : i = h
    · subst hih
      rw [hh] at hu
      obtain rfl := Option.some.inj hu
      rw [if_pos rfl, List.getElem?_append_right (by omega), hlen]
      simp
    · have hne : u.rank ≠ th.rank := fun e => hih (ht.rank_inj i h u th hu hh hv' hv e)
      rw [if_neg hih]
      split_ifs with hlt
      · rw [List.getElem?_append_left (by omega), List.getElem?_eraseIdx, if_neg (by omega),
          Nat.sub_add_cancel (by omega), huabs]
      · rw [List.getElem?_append_left (by omega), List.getElem?_eraseIdx, if_pos (by omega), huabs]

/-- A touch changes no slot's data. -/
theorem Cache.rankTouch_data {P : Word → Prop} {c : Cache} (h : Nat) (hc : ∀ t ∈ c.slots, P t.data) :
    ∀ t ∈ (c.rankTouch h).slots, P t.data := by
  intro t ht
  unfold Cache.rankTouch at ht
  split at ht
  · obtain ⟨i, hi, rfl⟩ := List.mem_mapIdx.1 ht
    rw [Slot.touched_data]
    exact hc _ (List.getElem_mem hi)
  · exact hc t ht

/-! ### Writing the data of a hit -/

theorem Cache.setData_slot {c : Cache} {h i : Nat} {v : Word} {t : Slot} :
    (c.setData h v).slots[i]? = some t ↔
      ∃ u : Slot, c.slots[i]? = some u ∧ t = if h = i then { u with data := v } else u := by
  simp only [Cache.setData, List.getElem?_modify]
  cases c.slots[i]? with
  | none => simp
  | some u => by_cases hi : h = i <;> simp [hi, eq_comm]

theorem Cache.Tracks.setData {c : Cache} {n : Nat} (ht : c.Tracks n) (h : Nat) (v : Word) :
    (c.setData h v).Tracks n := by
  have key : ∀ (i : Nat) (t : Slot), (c.setData h v).slots[i]? = some t →
      ∃ u : Slot, c.slots[i]? = some u ∧ t.valid = u.valid ∧ t.tag = u.tag ∧ t.rank = u.rank := by
    intro i t hi
    obtain ⟨u, hu, rfl⟩ := Cache.setData_slot.1 hi
    refine ⟨u, hu, ?_⟩
    split_ifs <;> simp
  refine ⟨?_, ?_, ?_, ?_, ?_⟩
  · simp [Cache.setData, ht.length_eq]
  · have hm : (c.setData h v).slots.map (fun t => t.valid) = c.slots.map fun t => t.valid := by
      refine List.ext_getElem? fun i => ?_
      simp only [Cache.setData, List.getElem?_map, List.getElem?_modify]
      cases c.slots[i]? with
      | none => rfl
      | some u => by_cases hi : h = i <;> simp [hi]
    have := congrArg (List.countP id) hm
    simp only [List.countP_map, Function.comp_def, id] at this
    exact this.trans ht.count_eq
  · intro i j s t hi hj hs ht' hst
    obtain ⟨u, hu, h1, h2, h3⟩ := key i s hi
    obtain ⟨w, hw, h4, h5, h6⟩ := key j t hj
    exact ht.tag_inj i j u w hu hw (h1 ▸ hs) (h4 ▸ ht') (by rw [← h2, ← h5, hst])
  · intro i j s t hi hj hs ht' hst
    obtain ⟨u, hu, h1, h2, h3⟩ := key i s hi
    obtain ⟨w, hw, h4, h5, h6⟩ := key j t hj
    exact ht.rank_inj i j u w hu hw (h1 ▸ hs) (h4 ▸ ht') (by rw [← h3, ← h6, hst])
  · intro i t hi hv
    obtain ⟨u, hu, h1, h2, h3⟩ := key i t hi
    rw [h3]
    exact ht.rank_lt i u hu (h1 ▸ hv)

/-- `data[h] <- v` is `cache[rank[h]].word <- v` (R136, R105). -/
theorem Cache.Tracks.abs_setData {c : Cache} {n h : Nat} {th : Slot} (ht : c.Tracks n)
    (hh : c.slots[h]? = some th) (hv : th.valid = true) (v : Word) :
    (c.setData h v).abs = setEntryWord c.abs th.rank v := by
  refine (ht.setData h v).abs_eq (by simp [setEntryWord, ht.abs_length, Cache.setData]) ?_
  intro i t hi hv'
  obtain ⟨u, hu, rfl⟩ := Cache.setData_slot.1 hi
  by_cases hih : h = i
  · subst hih
    rw [hh] at hu
    obtain rfl := Option.some.inj hu
    simp [setEntryWord, ht.abs_at hh hv, Slot.entry]
  · simp only [if_neg hih] at hv' ⊢
    have hne : th.rank ≠ u.rank := fun e => hih (ht.rank_inj h i th u hh hu hv hv' e)
    simp [setEntryWord, ht.abs_at hu hv', hne]

/-! ### Fill without eviction -/

/-- While `count < C` some slot is free (R133). -/
theorem Cache.Tracks.freeSlot {c : Cache} {n : Nat} (ht : c.Tracks n) (hlt : c.count < n) :
    ∃ (s : Nat) (t : Slot), c.freeSlot = some s ∧ c.slots[s]? = some t ∧ t.valid = false := by
  cases hf : c.freeSlot with
  | none =>
    have hall := List.findIdx?_eq_none_iff.1 hf
    have : c.slots.countP (fun t => t.valid) = c.slots.length :=
      List.countP_eq_length.2 fun t hm => by simpa using hall t hm
    rw [ht.count_eq, ht.length_eq] at this
    omega
  | some s =>
    obtain ⟨hlt', hp, -⟩ := List.findIdx?_eq_some_iff_getElem.1 hf
    exact ⟨s, _, rfl, List.getElem?_eq_getElem hlt', by simpa using hp⟩

theorem Cache.Tracks.rankFill_slot {c : Cache} {n i : Nat} {addr : Addr} {v : Word} {t : Slot}
    (ht : c.Tracks n) (hlt : c.count < n) :
    ∃ s, c.freeSlot = some s ∧ s < n ∧
      ((c.rankFill addr v).slots[i]? = some t → t.valid = true →
        (i = s ∧ t = { valid := true, tag := addr, data := v, rank := c.count }) ∨
          (i ≠ s ∧ c.slots[i]? = some t)) := by
  obtain ⟨s, u, hs, hu, huv⟩ := ht.freeSlot hlt
  have hsl : s < c.slots.length := (List.getElem?_eq_some_iff.1 hu).1
  refine ⟨s, hs, ht.length_eq ▸ hsl, fun hi hv => ?_⟩
  simp only [Cache.rankFill, hs] at hi
  by_cases his : i = s
  · subst his
    rw [List.getElem?_set_self hsl] at hi
    exact .inl ⟨rfl, (Option.some.inj hi).symm⟩
  · rw [List.getElem?_set_ne (Ne.symm his)] at hi
    exact .inr ⟨his, hi⟩

theorem Cache.Tracks.rankFill_count {c : Cache} {n : Nat} {addr : Addr} {v : Word} (ht : c.Tracks n)
    (hlt : c.count < n) : (c.rankFill addr v).count = c.count + 1 := by
  obtain ⟨s, u, hs, -, -⟩ := ht.freeSlot hlt
  simp [Cache.rankFill, hs]

/-- `RankFill` of an uncached address keeps the invariants (R137). -/
theorem Cache.Tracks.rankFill {c : Cache} {n : Nat} {addr : Addr} {v : Word} (ht : c.Tracks n)
    (hlt : c.count < n) (hm : c.lookup addr = none) : (c.rankFill addr v).Tracks n := by
  have hnew := Cache.lookup_none hm
  have hc := ht.rankFill_count (addr := addr) (v := v) hlt
  refine ⟨?_, ?_, ?_, ?_, ?_⟩
  · obtain ⟨s, u, hs, -, -⟩ := ht.freeSlot hlt
    simp [Cache.rankFill, hs, ht.length_eq]
  · obtain ⟨s, u, hs, hu, huv⟩ := ht.freeSlot hlt
    obtain ⟨hsl, rfl⟩ := List.getElem?_eq_some_iff.1 hu
    rw [hc, ← ht.count_eq]
    simp only [Cache.rankFill, hs]
    rw [List.countP_set hsl]
    simp [huv]
  · intro i j s t hi hj hs ht' hst
    obtain ⟨f, hf, -, h1⟩ := ht.rankFill_slot (i := i) (addr := addr) (v := v) (t := s) hlt
    obtain ⟨g, hg, -, h2⟩ := ht.rankFill_slot (i := j) (addr := addr) (v := v) (t := t) hlt
    rw [hf] at hg
    obtain rfl := Option.some.inj hg
    rcases h1 hi hs with ⟨rfl, rfl⟩ | ⟨hne, hi'⟩ <;> rcases h2 hj ht' with ⟨rfl, rfl⟩ | ⟨hne', hj'⟩
    · rfl
    · exact absurd hst.symm (hnew j t hj' ht')
    · exact absurd hst (hnew i s hi' hs)
    · exact ht.tag_inj i j s t hi' hj' hs ht' hst
  · intro i j s t hi hj hs ht' hst
    obtain ⟨f, hf, -, h1⟩ := ht.rankFill_slot (i := i) (addr := addr) (v := v) (t := s) hlt
    obtain ⟨g, hg, -, h2⟩ := ht.rankFill_slot (i := j) (addr := addr) (v := v) (t := t) hlt
    rw [hf] at hg
    obtain rfl := Option.some.inj hg
    rcases h1 hi hs with ⟨rfl, rfl⟩ | ⟨hne, hi'⟩ <;> rcases h2 hj ht' with ⟨rfl, rfl⟩ | ⟨hne', hj'⟩
    · rfl
    · exact absurd hst (Nat.ne_of_gt (ht.rank_lt j t hj' ht'))
    · exact absurd hst (Nat.ne_of_lt (ht.rank_lt i s hi' hs))
    · exact ht.rank_inj i j s t hi' hj' hs ht' hst
  · intro i t hi hv
    obtain ⟨f, hf, -, h1⟩ := ht.rankFill_slot (i := i) (addr := addr) (v := v) (t := t) hlt
    rw [hc]
    rcases h1 hi hv with ⟨rfl, rfl⟩ | ⟨hne, hi'⟩
    · exact Nat.lt_succ_self _
    · exact Nat.lt_succ_of_lt (ht.rank_lt i t hi' hv)

/-- `RankFill` implements appending (R133, R141). -/
theorem Cache.Tracks.abs_rankFill {c : Cache} {n : Nat} {addr : Addr} {v : Word} (ht : c.Tracks n)
    (hlt : c.count < n) (hm : c.lookup addr = none) :
    (c.rankFill addr v).abs = c.abs ++ [{ addr := addr, word := v }] := by
  refine (ht.rankFill hlt hm).abs_eq ?_ ?_
  · rw [ht.rankFill_count hlt]; simp [ht.abs_length]
  · intro i t hi hv
    obtain ⟨f, hf, -, h1⟩ := ht.rankFill_slot (i := i) (addr := addr) (v := v) (t := t) hlt
    rcases h1 hi hv with ⟨rfl, rfl⟩ | ⟨hne, hi'⟩
    · rw [List.getElem?_append_right (by simp [ht.abs_length])]
      simp [ht.abs_length, Slot.entry]
    · rw [List.getElem?_append_left (by rw [ht.abs_length]; exact ht.rank_lt i t hi' hv)]
      exact ht.abs_at hi' hv

/-! ### Fill with eviction -/

/-- At `count = C` every slot is valid (R134). -/
theorem Cache.Tracks.all_valid {c : Cache} {n i : Nat} {t : Slot} (ht : c.Tracks n) (hf : c.count = n)
    (hi : c.slots[i]? = some t) : t.valid = true := by
  have : c.slots.countP (fun t => t.valid) = c.slots.length := by
    rw [ht.count_eq, ht.length_eq, hf]
  exact List.countP_eq_length.1 this t (List.mem_of_getElem? hi)

/-- There is exactly one victim, the slot with rank 0 (R142). -/
theorem Cache.Tracks.victim {c : Cache} {n : Nat} (ht : c.Tracks n) (hpos : 0 < c.count) :
    ∃ (s : Nat) (t : Slot), c.victim = some s ∧ c.slots[s]? = some t ∧ t.valid = true ∧ t.rank = 0 := by
  cases hf : c.victim with
  | none =>
    obtain ⟨i, t, hi, hv, hr⟩ := ht.rank_surj hpos
    have := List.findIdx?_eq_none_iff.1 hf t (List.mem_of_getElem? hi)
    simp [hv, hr] at this
  | some s =>
    obtain ⟨hlt', hp, -⟩ := List.findIdx?_eq_some_iff_getElem.1 hf
    simp only [Bool.and_eq_true, beq_iff_eq] at hp
    exact ⟨s, _, rfl, List.getElem?_eq_getElem hlt', hp.1, hp.2⟩

@[simp] theorem Slot.evictFilled_valid (s n : Nat) (a : Addr) (v : Word) (j : Nat) (t : Slot) :
    (t.evictFilled s n a v j).valid = t.valid := by
  unfold Slot.evictFilled; split_ifs <;> rfl

theorem Cache.rankEvictFill_slot {c : Cache} {n s i : Nat} {addr : Addr} {v : Word} {t : Slot}
    (hs : c.victim = some s) :
    (c.rankEvictFill n addr v).slots[i]? = some t ↔
      ∃ u : Slot, c.slots[i]? = some u ∧ t = u.evictFilled s n addr v i := by
  simp only [Cache.rankEvictFill, hs, List.getElem?_mapIdx, Option.map_eq_some_iff]
  exact ⟨fun ⟨u, hu, e⟩ => ⟨u, hu, e.symm⟩, fun ⟨u, hu, e⟩ => ⟨u, hu, e.symm⟩⟩

theorem Cache.rankEvictFill_count (c : Cache) (n : Nat) (addr : Addr) (v : Word) :
    (c.rankEvictFill n addr v).count = c.count := by
  unfold Cache.rankEvictFill; split <;> rfl

/-- `RankEvictFill` of an uncached address keeps the invariants (R137). -/
theorem Cache.Tracks.rankEvictFill {c : Cache} {n : Nat} {addr : Addr} {v : Word} (ht : c.Tracks n)
    (hf : c.count = n) (hpos : 0 < n) (hm : c.lookup addr = none) :
    (c.rankEvictFill n addr v).Tracks n := by
  have hnew := Cache.lookup_none hm
  have hc := Cache.rankEvictFill_count c n addr v
  obtain ⟨s, ts, hs, hts, hvs, hrs⟩ := ht.victim (by omega)
  refine ⟨?_, ?_, ?_, ?_, ?_⟩
  · simp [Cache.rankEvictFill, hs, ht.length_eq]
  · rw [hc, ← ht.count_eq]
    simp only [Cache.rankEvictFill, hs]
    exact countP_valid_mapIdx _ _ fun _ _ => Slot.evictFilled_valid ..
  · intro i j a b hi hj ha hb hab
    obtain ⟨u, hu, rfl⟩ := (Cache.rankEvictFill_slot hs).1 hi
    obtain ⟨w, hw, rfl⟩ := (Cache.rankEvictFill_slot hs).1 hj
    simp only [Slot.evictFilled_valid] at ha hb
    unfold Slot.evictFilled at hab
    split_ifs at hab with h1 h2 h2
    · omega
    · exact absurd hab.symm (hnew j w hw hb)
    · exact absurd hab (hnew i u hu ha)
    · exact ht.tag_inj i j u w hu hw ha hb hab
  · intro i j a b hi hj ha hb hab
    obtain ⟨u, hu, rfl⟩ := (Cache.rankEvictFill_slot hs).1 hi
    obtain ⟨w, hw, rfl⟩ := (Cache.rankEvictFill_slot hs).1 hj
    simp only [Slot.evictFilled_valid] at ha hb
    have h1 := ht.rank_lt i u hu ha
    have h2 := ht.rank_lt j w hw hb
    have h3 := fun e => ht.rank_inj i j u w hu hw ha hb e
    have h4 : u.rank = 0 → i = s := fun e => ht.rank_inj i s u ts hu hts ha hvs (by omega)
    have h5 : w.rank = 0 → j = s := fun e => ht.rank_inj j s w ts hw hts hb hvs (by omega)
    unfold Slot.evictFilled at hab
    split_ifs at hab with h6 h7 h7
    · omega
    · have := mt h5 h7; simp only at hab; omega
    · have := mt h4 h6; simp only at hab; omega
    · have := mt h4 h6; have := mt h5 h7; simp only at hab; exact h3 (by omega)
  · intro i t hi hv
    obtain ⟨u, hu, rfl⟩ := (Cache.rankEvictFill_slot hs).1 hi
    simp only [Slot.evictFilled_valid] at hv
    have := ht.rank_lt i u hu hv
    rw [hc]
    unfold Slot.evictFilled
    split_ifs <;> simp only <;> omega

/-- `RankEvictFill` implements `tail` then appending (R134, R141). -/
theorem Cache.Tracks.abs_rankEvictFill {c : Cache} {n : Nat} {addr : Addr} {v : Word} (ht : c.Tracks n)
    (hf : c.count = n) (hpos : 0 < n) (hm : c.lookup addr = none) :
    (c.rankEvictFill n addr v).abs = c.abs.tail ++ [{ addr := addr, word := v }] := by
  obtain ⟨s, ts, hs, hts, hvs, hrs⟩ := ht.victim (by omega)
  have hlen := ht.abs_length
  refine (ht.rankEvictFill hf hpos hm).abs_eq ?_ ?_
  · rw [Cache.rankEvictFill_count]; simp [hlen]; omega
  · intro i t hi hv
    obtain ⟨u, hu, rfl⟩ := (Cache.rankEvictFill_slot hs).1 hi
    simp only [Slot.evictFilled_valid] at hv
    have hult := ht.rank_lt i u hu hv
    by_cases his : i = s
    · subst his
      rw [List.getElem?_append_right (by simp [Slot.evictFilled, hlen, hf])]
      simp [Slot.evictFilled, Slot.entry, hlen, hf]
    · have hne : u.rank ≠ 0 := fun e => his (ht.rank_inj i s u ts hu hts hv hvs (by omega))
      have hr : (u.evictFilled s n addr v i).rank = u.rank - 1 := by simp [Slot.evictFilled, his]
      have he : (u.evictFilled s n addr v i).entry = u.entry := by
        simp [Slot.evictFilled, his, Slot.entry]
      rw [hr, he, List.getElem?_append_left (by simp [hlen]; omega), List.getElem?_tail,
        Nat.sub_add_cancel (by omega)]
      exact ht.abs_at hu hv

/-! ### The fill of a miss, and the update of a write -/

/-- A valid count never passes the capacity (INV-CAP, R27). -/
theorem Cache.Tracks.count_le {c : Cache} {n : Nat} (ht : c.Tracks n) : c.count ≤ n := by
  rw [← ht.count_eq, ← ht.length_eq]; exact List.countP_le_length

theorem Cache.Tracks.insert {c : Cache} {n : Nat} {addr : Addr} {v : Word} (ht : c.Tracks n)
    (hpos : 0 < n) (hm : c.lookup addr = none) : (c.insert n addr v).Tracks n := by
  unfold Cache.insert
  split_ifs with h
  · exact ht.rankFill h hm
  · exact ht.rankEvictFill (by have := ht.count_le; omega) hpos hm

/-- The slot-level fill implements `Insert` (R108, R141). -/
theorem Cache.Tracks.abs_insert {c : Cache} {n : Nat} {addr : Addr} {v : Word} (ht : c.Tracks n)
    (hpos : 0 < n) (hm : c.lookup addr = none) :
    (c.insert n addr v).abs = insertEntry n c.abs addr v := by
  have hle := ht.count_le
  unfold Cache.insert insertEntry
  rw [ht.abs_length]
  split_ifs with h h' h'
  · omega
  · exact ht.abs_rankFill h hm
  · exact ht.abs_rankEvictFill h' hpos hm
  · omega

/-- Every tag after a fill is the new address or was valid before. -/
theorem Cache.insert_tag {c : Cache} {n i : Nat} {addr : Addr} {v : Word} {t : Slot} (ht : c.Tracks n)
    (hpos : 0 < n) (hm : c.lookup addr = none) (hi : (c.insert n addr v).slots[i]? = some t)
    (hv : t.valid = true) : t.tag = addr ∨ ∃ (j : Nat) (u : Slot), c.slots[j]? = some u ∧ u.valid = true ∧ u.tag = t.tag := by
  have hmem := (ht.insert (v := v) hpos hm).mem_abs.2 ⟨i, t, hi, hv, rfl⟩
  rw [ht.abs_insert hpos hm, insertEntry, List.mem_append, List.mem_singleton] at hmem
  rcases hmem with h | h
  · have h' : t.entry ∈ c.abs := by
      split_ifs at h
      · exact List.mem_of_mem_tail h
      · exact h
    obtain ⟨j, u, hj, hu, he⟩ := ht.mem_abs.1 h'
    exact .inr ⟨j, u, hj, hu, congrArg Entry.addr he⟩
  · exact .inl (congrArg Entry.addr h)

/-- The data of a slot after a fill is the new Word or was in a slot before. -/
theorem Cache.insert_data {P : Word → Prop} {c : Cache} (n : Nat) (addr : Addr) {v : Word} (hv : P v)
    (hc : ∀ t ∈ c.slots, P t.data) : ∀ t ∈ (c.insert n addr v).slots, P t.data := by
  intro t ht
  simp only [Cache.insert, Cache.rankFill, Cache.rankEvictFill] at ht
  split_ifs at ht <;> split at ht
  · rcases List.mem_or_eq_of_mem_set ht with h | rfl
    · exact hc t h
    · exact hv
  · exact hc t ht
  · obtain ⟨i, hi, rfl⟩ := List.mem_mapIdx.1 ht
    unfold Slot.evictFilled
    split_ifs
    · exact hv
    · exact hc c.slots[i] (List.getElem_mem hi)
  · exact hc t ht

/-- Writing a hit's data puts no other Word in a slot. -/
theorem Cache.setData_data {P : Word → Prop} {c : Cache} (h : Nat) {v : Word} (hv : P v)
    (hc : ∀ t ∈ c.slots, P t.data) : ∀ t ∈ (c.setData h v).slots, P t.data := by
  intro t ht
  obtain ⟨i, hi⟩ := List.getElem?_of_mem ht
  obtain ⟨u, hu, rfl⟩ := Cache.setData_slot.1 hi
  split_ifs
  · exact hv
  · exact hc u (List.mem_of_getElem? hu)

end Sys2Proof.Machine
end

