-- ==== Sys2Proof/Laws/CacheOps.lean ====
section
/-! SUPPORT. The two cache operations: what they leave alone, that they keep the invariant, and that each is
the abstract operation it implements. -/

namespace Sys2Proof.Machine

theorem State.Inv.tracks {s : State} (h : s.Inv) : s.cache.Tracks s.params.capacity :=
  Cache.ok_iff_tracks.1 h.2.2.2.1

theorem State.Inv.capacity_pos {s : State} (h : s.Inv) : 0 < s.params.capacity := h.1.2.2.2

/-- INV-RANGE, slot by slot. -/
theorem State.Inv.tag_lt {s : State} (h : s.Inv) {i : Nat} {t : Slot} (hi : s.cache.slots[i]? = some t)
    (hv : t.valid = true) : t.tag.toNat < s.params.storeSize :=
  h.2.2.2.2.1 t (List.mem_filter.2 ⟨List.mem_of_getElem? hi, hv⟩)

/-- INV-RANGE, entry by entry (R27). -/
theorem State.Inv.entry_lt {s : State} (h : s.Inv) {e : Entry} (he : e ∈ s.entries) :
    e.addr.toNat < s.params.storeSize := by
  obtain ⟨i, t, hi, hv, rfl⟩ := h.tracks.mem_abs.1 he
  exact h.tag_lt hi hv

/-- Every register, slot and listed cell holds a Word. -/
theorem State.Inv.wordsFit {s : State} (h : s.Inv) : s.WordsFit := h.2.2.2.2.2

/-- A register holds a Word (R21). -/
theorem State.Inv.reg_isWord {s : State} (h : s.Inv) (id : Nat) (hid : id < 8) : s.params.isWord s.regs[id] :=
  h.wordsFit.1 _ (Vector.mem_toList_iff.2 (Vector.getElem_mem hid))

/-- The store reads as a Word (R29). -/
theorem State.Inv.mem_isWord {s : State} (h : s.Inv) (a : Nat) : s.params.isWord (s.mem.read a) :=
  Memory.read_of_all (Params.isWord_zero _) h.wordsFit.2.2 a

/-- An address the store would refuse is never cached: it misses (R102). -/
theorem State.Inv.lookup_of_ge {s : State} (h : s.Inv) {addr : Addr}
    (ha : s.params.storeSize ≤ addr.toNat) : s.cache.lookup addr = none := by
  cases hl : s.cache.lookup addr with
  | none => rfl
  | some i =>
    obtain ⟨t, hi, hv, rfl⟩ := Cache.lookup_some hl
    have := h.tag_lt hi hv
    omega

/-- The invariant speaks of parameters, registers, store and cache only. -/
theorem State.inv_congr {s t : State} (hp : t.params = s.params) (hr : t.regs = s.regs) (hm : t.mem = s.mem)
    (hc : t.cache = s.cache) : t.Inv ↔ s.Inv := by
  simp only [State.Inv, State.TagsInRange, State.WordsFit, hp, hr, hm, hc]

@[simp] theorem State.setReply_inv (s : State) (r : Reply) : (s.setReply r).Inv ↔ s.Inv :=
  State.inv_congr rfl rfl rfl rfl
@[simp] theorem State.record_inv (s : State) (e : MemEvent) : (s.record e).Inv ↔ s.Inv :=
  State.inv_congr rfl rfl rfl rfl
@[simp] theorem State.setDriver_inv (s : State) (d : List DriverAction) : (s.setDriver d).Inv ↔ s.Inv :=
  State.inv_congr rfl rfl rfl rfl

/-- A Word put in a register keeps the invariant. -/
theorem State.Inv.setReg {s : State} (h : s.Inv) {id : Nat} (hid : id < 8) {v : Word} (hv : s.params.isWord v) :
    (s.setRegs (s.regs.set id v)).Inv := by
  refine ⟨h.1, h.2.1, h.2.2.1, h.2.2.2.1, h.2.2.2.2.1, fun w hw => ?_, h.wordsFit.2⟩
  rw [State.setRegs_regs, Vector.toList_set] at hw
  rcases List.mem_or_eq_of_mem_set hw with hw | rfl
  · exact h.wordsFit.1 w hw
  · exact hv

/-- A store write of a Word at a valid address keeps the invariant. -/
theorem State.Inv.setMem {s : State} (h : s.Inv) {a : Nat} {v : Word} (ha : a < s.params.storeSize)
    (hv : s.params.isWord v) : (s.setMem (s.mem.write a v)).Inv := by
  refine ⟨h.1, Memory.wf_write a v h.2.1, Memory.within_write a v ha h.2.2.1, h.2.2.2.1, h.2.2.2.2.1,
    h.wordsFit.1, h.wordsFit.2.1, fun c hc => ?_⟩
  rcases Memory.mem_write hc with rfl | hc
  · exact hv
  · exact h.wordsFit.2.2 c hc

/-- A cache that tracks, of valid addresses and Words, keeps the invariant. -/
theorem State.Inv.setCache {s : State} (h : s.Inv) {c : Cache} (hc : c.Tracks s.params.capacity)
    (ht : ∀ (i : Nat) (t : Slot), c.slots[i]? = some t → t.valid = true →
      t.tag.toNat < s.params.storeSize) (hd : ∀ t ∈ c.slots, s.params.isWord t.data) :
    (s.setCache c).Inv := by
  refine ⟨h.1, h.2.1, h.2.2.1, Cache.ok_iff_tracks.2 hc, fun t hm => ?_, h.wordsFit.1, hd, h.wordsFit.2.2⟩
  obtain ⟨hmem, hv⟩ := List.mem_filter.1 hm
  obtain ⟨i, hi⟩ := List.getElem?_of_mem hmem
  exact ht i t hi hv

/-! ### CacheRead -/

theorem Cache.dataAt_eq {c : Cache} {h : Nat} {t : Slot} (hh : c.slots[h]? = some t) :
    c.dataAt h = t.data := by
  simp [Cache.dataAt, hh]

/-- Everything a cache read can do (R135): a hit, a miss of a valid address, a refused address. -/
theorem cacheRead_cases (addr : Addr) (s : State) :
    (∃ h t, s.cache.lookup addr = some h ∧ s.cache.slots[h]? = some t ∧ t.valid = true ∧ t.tag = addr ∧
        cacheRead addr s = (.ok t.data, s.setCache (s.cache.rankTouch h))) ∨
      (s.cache.lookup addr = none ∧ addr.toNat < s.params.storeSize ∧
        cacheRead addr s = (.ok (s.mem.read addr.toNat),
          (s.record (.mr addr (s.mem.read addr.toNat))).setCache
            (s.cache.insert s.params.capacity addr (s.mem.read addr.toNat)))) ∨
      (s.cache.lookup addr = none ∧ s.params.storeSize ≤ addr.toNat ∧
        cacheRead addr s = (.err (.outOfRange .addr addr.toNat), s.record (.merr .read addr))) := by
  cases hl : s.cache.lookup addr with
  | some h =>
    obtain ⟨t, hi, hv, ht⟩ := Cache.lookup_some hl
    exact .inl ⟨h, t, rfl, hi, hv, ht, by simp [cacheRead, hl, Cache.dataAt_eq hi]⟩
  | none =>
    by_cases ha : addr.toNat < s.params.storeSize
    · exact .inr (.inl ⟨rfl, ha, by simp [cacheRead, hl, memRead_of_lt ha]⟩)
    · exact .inr (.inr ⟨rfl, by omega, by simp [cacheRead, hl, memRead_of_ge (Nat.le_of_not_lt ha)]⟩)

/-- A cache read changes the cache and the trace only. -/
theorem cacheRead_frame (addr : Addr) (s : State) :
    (cacheRead addr s).2.params = s.params ∧ (cacheRead addr s).2.regs = s.regs ∧
      (cacheRead addr s).2.mem = s.mem ∧ (cacheRead addr s).2.reply = s.reply ∧
      (cacheRead addr s).2.driver = s.driver := by
  rcases cacheRead_cases addr s with ⟨h, t, -, -, -, -, e⟩ | ⟨-, -, e⟩ | ⟨-, -, e⟩ <;> simp [e]

/-- A cache read keeps the invariant (R27, R137). -/
theorem State.Inv.cacheRead {s : State} (hs : s.Inv) (addr : Addr) : (cacheRead addr s).2.Inv := by
  rcases cacheRead_cases addr s with ⟨h, t, -, hi, hv, -, e⟩ | ⟨hl, ha, e⟩ | ⟨-, -, e⟩ <;> rw [e]
  · refine hs.setCache (hs.tracks.rankTouch hi hv) (fun i u hu huv => ?_)
      (Cache.rankTouch_data h hs.wordsFit.2.1)
    obtain ⟨w, hw, rfl⟩ := (Cache.rankTouch_slot hi).1 hu
    rw [Slot.touched_valid] at huv
    rw [Slot.touched_tag]
    exact hs.tag_lt hw huv
  · refine State.Inv.setCache ((State.record_inv _ _).2 hs) (hs.tracks.insert hs.capacity_pos hl)
      (fun i u hu huv => ?_) (Cache.insert_data _ _ (hs.mem_isWord _) hs.wordsFit.2.1)
    rcases Cache.insert_tag hs.tracks hs.capacity_pos hl hu huv with h | ⟨j, w, hj, hw, h⟩
    · rw [h]; exact ha
    · rw [← h]; exact hs.tag_lt hj hw
  · exact (State.record_inv _ _).2 hs

/-- A cache read answers a Word (R102). -/
theorem State.Inv.cacheRead_isWord {s : State} (hs : s.Inv) {addr : Addr} {v : Word}
    (h : (Machine.cacheRead addr s).1 = .ok v) : s.params.isWord v := by
  rcases cacheRead_cases addr s with ⟨h', t, -, hi, -, -, e⟩ | ⟨-, -, e⟩ | ⟨-, -, e⟩ <;> rw [e] at h <;> cases h
  · exact hs.wordsFit.2.1 t (List.mem_of_getElem? hi)
  · exact hs.mem_isWord _

/-- The slot-level read implements the abstract one (R141). -/
theorem State.Inv.absCacheRead {s : State} (hs : s.Inv) (addr : Addr) :
    absCacheRead s.params addr s.abs = ((Machine.cacheRead addr s).1, (Machine.cacheRead addr s).2.abs) := by
  have hla := hs.tracks.lookupEntry_abs addr
  rcases cacheRead_cases addr s with ⟨h, t, hl, hi, hv, ht, e⟩ | ⟨hl, ha, e⟩ | ⟨hl, ha, e⟩ <;> rw [e]
  · simp only [hl, Option.bind_some, hi, Option.map_some] at hla
    simp only [Machine.absCacheRead, State.abs, State.entries, hla, hs.tracks.abs_at hi hv]
    simp [hs.tracks.abs_rankTouch hi hv, Slot.entry]
  · simp only [hl, Option.bind_none] at hla
    simp only [Machine.absCacheRead, State.abs, State.entries, hla, absMemRead, storeRead_of_lt ha]
    simp [hs.tracks.abs_insert hs.capacity_pos hl]
  · simp only [hl, Option.bind_none] at hla
    simp only [Machine.absCacheRead, State.abs, State.entries, hla, absMemRead, storeRead_of_ge ha]
    simp

/-! ### CacheWrite -/

/-- Everything a cache write can do (R136): the store takes the Word and the cache is updated, or the store
refuses the address and nothing has changed. -/
theorem cacheWrite_cases (addr : Addr) (v : Word) (s : State) :
    (addr.toNat < s.params.storeSize ∧
        cacheWrite addr v s = (.ok (), ((s.setMem (s.mem.write addr.toNat v)).record (.mw addr v)).setCache
          (s.cache.update s.params.capacity addr v))) ∨
      (s.params.storeSize ≤ addr.toNat ∧
        cacheWrite addr v s = (.err (.outOfRange .addr addr.toNat), s.record (.merr .write addr))) := by
  by_cases ha : addr.toNat < s.params.storeSize
  · exact .inl ⟨ha, by simp [cacheWrite, memWrite_of_lt v ha]⟩
  · exact .inr ⟨by omega, by simp [cacheWrite, memWrite_of_ge v (Nat.le_of_not_lt ha)]⟩

/-- A cache write changes the cache, the store and the trace only. -/
theorem cacheWrite_frame (addr : Addr) (v : Word) (s : State) :
    (cacheWrite addr v s).2.params = s.params ∧ (cacheWrite addr v s).2.regs = s.regs ∧
      (cacheWrite addr v s).2.reply = s.reply ∧ (cacheWrite addr v s).2.driver = s.driver := by
  rcases cacheWrite_cases addr v s with ⟨-, e⟩ | ⟨-, e⟩ <;> simp [e]

/-- The update of a write keeps the slots' invariants (R137). -/
theorem Cache.Tracks.update {c : Cache} {n : Nat} (ht : c.Tracks n) (hpos : 0 < n) (addr : Addr) (v : Word) :
    (c.update n addr v).Tracks n := by
  unfold Cache.update
  cases hl : c.lookup addr with
  | none => exact ht.insert hpos hl
  | some h =>
    obtain ⟨t, hi, hv, -⟩ := Cache.lookup_some hl
    exact (ht.setData h v).rankTouch (Cache.setData_slot.2 ⟨t, hi, rfl⟩) (by simpa using hv)

/-- The update of a write implements the abstract one (R105, R141). -/
theorem Cache.Tracks.abs_update {c : Cache} {n : Nat} (ht : c.Tracks n) (hpos : 0 < n) (addr : Addr)
    (v : Word) :
    (c.update n addr v).abs =
      match lookupEntry c.abs addr with
      | some i => touchEntry (setEntryWord c.abs i v) i
      | none => insertEntry n c.abs addr v := by
  rw [ht.lookupEntry_abs addr]
  unfold Cache.update
  cases hl : c.lookup addr with
  | none => simpa using ht.abs_insert hpos hl
  | some h =>
    obtain ⟨t, hi, hv, -⟩ := Cache.lookup_some hl
    have hset := (Cache.setData_slot (h := h) (v := v)).2 ⟨t, hi, rfl⟩
    have := (ht.setData h v).abs_rankTouch hset (by simpa using hv)
    simp only [Option.bind_some, hi, Option.map_some]
    rw [this, ht.abs_setData hi hv]
    simp

/-- Every address cached after an update is the written one or was cached before. -/
theorem Cache.Tracks.mem_update {c : Cache} {n : Nat} (ht : c.Tracks n) (hpos : 0 < n) {addr : Addr}
    {v : Word} {e : Entry} (he : e ∈ (c.update n addr v).abs) :
    e = { addr := addr, word := v } ∨ (e ∈ c.abs ∧ e.addr ≠ addr) := by
  rw [ht.abs_update hpos] at he
  cases hl : lookupEntry c.abs addr with
  | none =>
    simp only [hl, insertEntry, List.mem_append, List.mem_singleton] at he
    rcases he with h | h
    · have hm : e ∈ c.abs := by
        split_ifs at h
        · exact List.mem_of_mem_tail h
        · exact h
      exact .inr ⟨hm, lookupEntry_none.1 hl e hm⟩
    · exact .inl h
  | some i =>
    obtain ⟨d, hd, hda⟩ := lookupEntry_some hl
    have hset : (setEntryWord c.abs i v)[i]? = some { d with word := v } := by
      simp [setEntryWord, hd]
    simp only [hl, touchEntry, hset, List.mem_append, List.mem_singleton] at he
    rcases he with h | h
    · obtain ⟨k, hk⟩ := List.getElem?_of_mem h
      rw [List.getElem?_eraseIdx] at hk
      obtain ⟨m, hm, hmi⟩ : ∃ m : Nat, (setEntryWord c.abs i v)[m]? = some e ∧ m ≠ i := by
        split_ifs at hk with h'
        · exact ⟨k, hk, by omega⟩
        · exact ⟨k + 1, hk, by omega⟩
      have hm' : c.abs[m]? = some e := by simpa [setEntryWord, Ne.symm hmi] using hm
      exact .inr ⟨List.mem_of_getElem? hm', fun hea => hmi (ht.abs_addr_inj hm' hd (by rw [hea, hda]))⟩
    · subst h
      exact .inl (by rw [← hda])

/-- The data of a slot after an update is the written Word or was in a slot before. -/
theorem Cache.update_data {P : Word → Prop} {c : Cache} (n : Nat) (addr : Addr) {v : Word} (hv : P v)
    (hc : ∀ t ∈ c.slots, P t.data) : ∀ t ∈ (c.update n addr v).slots, P t.data := by
  unfold Cache.update
  split
  · exact Cache.rankTouch_data _ (Cache.setData_data _ hv hc)
  · exact Cache.insert_data n addr hv hc

/-- A cache write of a Word keeps the invariant (R27, R111, R137). -/
theorem State.Inv.cacheWrite {s : State} (hs : s.Inv) (addr : Addr) {v : Word} (hv : s.params.isWord v) :
    (cacheWrite addr v s).2.Inv := by
  rcases cacheWrite_cases addr v s with ⟨ha, e⟩ | ⟨-, e⟩ <;> rw [e]
  · have ht := hs.tracks.update hs.capacity_pos addr v
    refine State.Inv.setCache ((State.record_inv _ _).2 (hs.setMem ha hv)) ht (fun i t hi htv => ?_)
      (Cache.update_data _ _ hv hs.wordsFit.2.1)
    rcases hs.tracks.mem_update hs.capacity_pos (ht.mem_abs.2 ⟨i, t, hi, htv, rfl⟩) with h | ⟨h, -⟩
    · rw [show t.tag = addr from congrArg Entry.addr h]; exact ha
    · exact hs.entry_lt h
  · exact (State.record_inv _ _).2 hs

/-- The slot-level write implements the abstract one (R141). -/
theorem State.Inv.absCacheWrite {s : State} (hs : s.Inv) (addr : Addr) (v : Word) :
    absCacheWrite s.params addr v s.abs =
      ((Machine.cacheWrite addr v s).1, (Machine.cacheWrite addr v s).2.abs) := by
  have hup := hs.tracks.abs_update hs.capacity_pos addr v
  rcases cacheWrite_cases addr v s with ⟨ha, e⟩ | ⟨ha, e⟩ <;> rw [e]
  · simp only [Machine.absCacheWrite, State.abs, State.entries, absMemWrite, storeWrite_of_lt v ha, andThen_ok]
    cases hl : lookupEntry s.cache.abs addr <;> simp [hup, hl]
  · simp [Machine.absCacheWrite, State.abs, State.entries, absMemWrite, storeWrite_of_ge v ha]

end Sys2Proof.Machine
end

