-- ==== Sys2Proof/Laws/Exec.lean ====
section
/-! SUPPORT. What each meaning answers, over the shared operations, and that no meaning stops. -/

namespace Sys2Proof.Machine

/-- The answer a cache read gives its requester. -/
def readReply : Result Word → Reply
  | .ok v => .ok (some v)
  | .err e => .err e

/-- The answer a cache write gives its requester. -/
def writeReply : Result Unit → Reply
  | .ok _ => .ok none
  | .err e => .err e

theorem exec_cacheRead (addr : Addr) (s : State) :
    exec (.cacheRead addr) s = .next ((cacheRead addr s).2.setReply (readReply (cacheRead addr s).1)) := by
  simp only [exec, execCacheRead, respond, andThen]
  cases (cacheRead addr s).1 <;> rfl

theorem exec_cacheWrite (addr : Addr) (v : Word) (s : State) :
    exec (.cacheWrite addr v) s =
      .next ((cacheWrite addr (s.params.toWord v) s).2.setReply
        (writeReply (cacheWrite addr (s.params.toWord v) s).1)) := by
  simp only [exec, execCacheWrite, respond, andThen]
  cases (cacheWrite addr (s.params.toWord v) s).1 <;> rfl

/-- A LOAD whose cache read returned a Word, with a register id in range. -/
theorem exec_load_ok {a : Nibble} {b : Addr} {s : State} {v : Word} (hr : (cacheRead b s).1 = .ok v)
    (ha : a.toNat < 8) :
    exec (.load a b) s =
      .next (((cacheRead b s).2.setRegs (s.regs.set a.toNat v)).setReply (.ok none)) := by
  have hregs := (cacheRead_frame b s).2.1
  simp only [exec, execLoad, respond, andThen, effectiveAddr, regIdA, hr, writeReg_of_lt v ha, done, hregs]

/-- A LOAD whose cache read returned a Word, with a register id out of range. -/
theorem exec_load_reg {a : Nibble} {b : Addr} {s : State} {v : Word} (hr : (cacheRead b s).1 = .ok v)
    (ha : 8 ≤ a.toNat) :
    exec (.load a b) s = .next ((cacheRead b s).2.setReply (.err (.outOfRange .reg a.toNat))) := by
  simp only [exec, execLoad, respond, andThen, effectiveAddr, regIdA, hr, writeReg_of_ge v ha, raise_eq]

/-- A LOAD whose cache read was refused. -/
theorem exec_load_err {a : Nibble} {b : Addr} {s : State} {e : MachineError}
    (hr : (cacheRead b s).1 = .err e) :
    exec (.load a b) s = .next ((cacheRead b s).2.setReply (.err e)) := by
  simp only [exec, execLoad, respond, andThen, effectiveAddr, hr, raise_eq]

/-- A STORE of a register in range. -/
theorem exec_store_lt {a : Nibble} {b : Addr} {s : State} (ha : a.toNat < 8) :
    exec (.store a b) s = .next ((cacheWrite b s.regs[a.toNat] s).2.setReply
      (writeReply (cacheWrite b s.regs[a.toNat] s).1)) := by
  simp only [exec, execStore, respond, andThen, effectiveAddr, regIdA, readReg_of_lt ha, done]
  cases (cacheWrite b s.regs[a.toNat] s).1 <;> rfl

/-- A STORE of a register out of range. -/
theorem exec_store_ge {a : Nibble} {b : Addr} {s : State} (ha : 8 ≤ a.toNat) :
    exec (.store a b) s = .next (s.setReply (.err (.outOfRange .reg a.toNat))) := by
  simp only [exec, execStore, respond, andThen, regIdA, readReg_of_ge ha, raise_eq]

/-- An ADD of registers in range. -/
theorem exec_add_lt {a : Nibble} {b : Addr} {s : State} (ha : a.toNat < 8) (hb : b.toNat < 8) :
    exec (.add a b) s =
      .next ((s.setRegs (s.regs.set a.toNat (wordAdd s.params.wordWidth s.regs[b.toNat]
        s.regs[a.toNat]))).setReply (.ok none)) := by
  simp only [exec, execAdd, respond, andThen, regIdA, regIdB, readReg_of_lt ha, readReg_of_lt hb,
    writeReg_of_lt _ ha, done]

/-- A SUB of registers in range. -/
theorem exec_sub_lt {a : Nibble} {b : Addr} {s : State} (ha : a.toNat < 8) (hb : b.toNat < 8) :
    exec (.sub a b) s =
      .next ((s.setRegs (s.regs.set a.toNat (wordSub s.params.wordWidth s.regs[a.toNat]
        s.regs[b.toNat]))).setReply (.ok none)) := by
  simp only [exec, execSub, respond, andThen, regIdA, regIdB, readReg_of_lt ha, readReg_of_lt hb,
    writeReg_of_lt _ ha, done]

/-- An ADD with an id out of range changes nothing and names `b` first (R152). -/
theorem exec_add_ge {a : Nibble} {b : Addr} {s : State} (h : 8 ≤ a.toNat ∨ 8 ≤ b.toNat) :
    exec (.add a b) s = .next (s.setReply (.err (.outOfRange .reg
      (if 8 ≤ b.toNat then b.toNat else a.toNat)))) := by
  by_cases hb : 8 ≤ b.toNat
  · simp only [exec, execAdd, respond, andThen, regIdB, readReg_of_ge hb, raise_eq, if_pos hb]
  · have ha : 8 ≤ a.toNat := by tauto
    simp only [exec, execAdd, respond, andThen, regIdA, regIdB, readReg_of_lt (Nat.lt_of_not_le hb),
      readReg_of_ge ha, raise_eq, if_neg hb]

/-- A SUB with an id out of range changes nothing and names `a` first (R153). -/
theorem exec_sub_ge {a : Nibble} {b : Addr} {s : State} (h : 8 ≤ a.toNat ∨ 8 ≤ b.toNat) :
    exec (.sub a b) s = .next (s.setReply (.err (.outOfRange .reg
      (if 8 ≤ a.toNat then a.toNat else b.toNat)))) := by
  by_cases ha : 8 ≤ a.toNat
  · simp only [exec, execSub, respond, andThen, regIdA, readReg_of_ge ha, raise_eq, if_pos ha]
  · have hb : 8 ≤ b.toNat := by tauto
    simp only [exec, execSub, respond, andThen, regIdA, regIdB, readReg_of_lt (Nat.lt_of_not_le ha),
      readReg_of_ge hb, raise_eq, if_neg ha]

theorem exec_nop (s : State) : exec .nop s = .next (s.setReply (.ok none)) := rfl

/-- Every meaning answers a next state whose answer is new (R12, R215). -/
theorem exec_next (i : Instr) (s : State) : ∃ t r, exec i s = .next t ∧ t.reply = some r := by
  cases i with
  | cacheRead addr => exact ⟨_, _, exec_cacheRead addr s, rfl⟩
  | cacheWrite addr v => exact ⟨_, _, exec_cacheWrite addr v s, rfl⟩
  | load a b => exact ⟨_, _, rfl, rfl⟩
  | store a b => exact ⟨_, _, rfl, rfl⟩
  | add a b => exact ⟨_, _, rfl, rfl⟩
  | sub a b => exact ⟨_, _, rfl, rfl⟩
  | nop => exact ⟨_, _, rfl, rfl⟩

end Sys2Proof.Machine
end

