-- ==== Sys2Proof/Laws/PerInstr.lean ====
section
/-! SUPPORT. A statement made instruction by instruction: which format carries it, and under which number
(30_encoding.md R81, R84, R85). -/

namespace Sys2Proof.Laws

/-- The number of an instruction in the opcode map: `cmd` of the requester port or `op` of the instruction
word (R85). -/
def EncodingFormat.number : Instr → Nat
  | .cacheRead _ => 0
  | .cacheWrite _ _ => 1
  | .load _ _ => 0
  | .store _ _ => 1
  | .add _ _ => 2
  | .sub _ _ => 3
  | .nop => 4

/-- Whether the instruction is a command of the requester port (R82). -/
def EncodingFormat.onRequesterPort : Instr → Bool
  | .cacheRead _ | .cacheWrite _ _ => true
  | .load _ _ | .store _ _ | .add _ _ | .sub _ _ | .nop => false

/-- At every width `W` of the Word: a cache command is carried as a `CREQ`, any other instruction as an `I32` word, with the instruction's
number in the field that tells the commands of the format apart. -/
def EncodingFormat.Statement (i : Instr) : Prop :=
  ∀ W : Nat, match encode W i with
  | .creq q => EncodingFormat.onRequesterPort i = true ∧
      (cmdField (W := W) (BitVec.ofNat (1 + 24 + W) q)).toNat = EncodingFormat.number i
  | .i32 w => EncodingFormat.onRequesterPort i = false ∧ (opField w).toNat = EncodingFormat.number i

/-- The opcode field of a word is the tag it was built with. -/
theorem EncodingFormat.opField_encodeI32 (op a : Nibble) (b : Addr) : opField (encodeI32 op a b) = op := by
  apply BitVec.eq_of_toNat_eq
  have ha := a.isLt
  have hb := b.isLt
  simp only [opField, encodeI32, BitVec.extractLsb'_toNat, BitVec.toNat_append, Nat.shiftRight_eq_div_pow]
  rw [← Nat.shiftLeft_add_eq_or_of_lt hb, ← Nat.shiftLeft_add_eq_or_of_lt ha]
  simp only [Nat.shiftLeft_eq]
  omega

/-- The `cmd` bit of a request is the one it was built with. -/
theorem EncodingFormat.cmdField_encodeCreq {W : Nat} (cmd : BitVec 1) (addr : Addr) (v : BitVec W) :
    cmdField (encodeCreq cmd addr v) = cmd := by
  apply BitVec.eq_of_toNat_eq
  have hc := cmd.isLt
  have ha := addr.isLt
  simp only [cmdField, encodeCreq, BitVec.extractLsb'_toNat, BitVec.toNat_append, Nat.shiftRight_eq_div_pow]
  rw [← Nat.shiftLeft_add_eq_or_of_lt v.isLt, ← Nat.shiftLeft_add_eq_or_of_lt ha]
  simp only [Nat.shiftLeft_eq]
  rw [Nat.add_comm 24 W, Nat.pow_add, ← Nat.div_div_eq_div_mul, Nat.add_comm _ v.toNat,
    Nat.add_mul_div_right _ _ (Nat.two_pow_pos W), Nat.div_eq_of_lt v.isLt]
  omega

theorem EncodingFormat.cacheRead (addr : Addr) : EncodingFormat.Statement (.cacheRead addr) :=
  fun W => ⟨rfl, by rw [BitVec.ofNat_toNat, BitVec.setWidth_eq, cmdField_encodeCreq]; rfl⟩

theorem EncodingFormat.cacheWrite (addr : Addr) (v : Word) :
    EncodingFormat.Statement (.cacheWrite addr v) :=
  fun W => ⟨rfl, by rw [BitVec.ofNat_toNat, BitVec.setWidth_eq, cmdField_encodeCreq]; rfl⟩

theorem EncodingFormat.load (a : Nibble) (b : Addr) : EncodingFormat.Statement (.load a b) :=
  fun _ => ⟨rfl, by rw [opField_encodeI32]; rfl⟩

theorem EncodingFormat.store (a : Nibble) (b : Addr) : EncodingFormat.Statement (.store a b) :=
  fun _ => ⟨rfl, by rw [opField_encodeI32]; rfl⟩

theorem EncodingFormat.add (a : Nibble) (b : Addr) : EncodingFormat.Statement (.add a b) :=
  fun _ => ⟨rfl, by rw [opField_encodeI32]; rfl⟩

theorem EncodingFormat.sub (a : Nibble) (b : Addr) : EncodingFormat.Statement (.sub a b) :=
  fun _ => ⟨rfl, by rw [opField_encodeI32]; rfl⟩

theorem EncodingFormat.nop : EncodingFormat.Statement .nop :=
  fun _ => ⟨rfl, by rw [opField_encodeI32]; rfl⟩

end Sys2Proof.Laws
end

