-- ==== Sys2Proof/Laws/Step.lean ====
section
/-! SUPPORT. What a step does: nothing, or the driver's next action to its end. -/

namespace Sys2Proof.Machine

/-- With nothing supplied a step changes nothing. -/
theorem step_idle {s : State} (hs : s.params.legal) (hd : s.driver = []) : step s = .next s := by
  unfold step nextAction
  rw [if_pos hs, hd]

/-- A step runs the next action on the state without it. -/
theorem step_cons {s : State} {act : DriverAction} {rest : List DriverAction} (hs : s.params.legal)
    (hd : s.driver = act :: rest) : step s = runAction act (s.setDriver rest) := by
  unfold step nextAction
  rw [if_pos hs, hd]

/-- A session the spec refuses has no step. -/
theorem step_illegal {s : State} (hs : ¬ s.params.legal) : step s = .refused .illegalParameters := by
  unfold step
  rw [if_neg hs]

theorem runCommand_instr {c : Command} {i : Instr} (s : State) (h : decode s.params.wordWidth c = .instr i) :
    runCommand c s = exec i s := by
  simp [runCommand, h]

theorem runCommand_unknown {c : Command} {tag : Nibble} (s : State) (h : decode s.params.wordWidth c = .unknown tag) :
    runCommand c s = .next (s.setReply (.err (.unknownOpcode tag))) := by
  simp [runCommand, h, execUnknown]

end Sys2Proof.Machine
end

