-- ==== Sys2Proof/Tests/Slice0.lean ====
section
/-! SUPPORT. The model's own tests: what the checks refuse, words written out from the spec's encodings, one step
of each instruction against 95_test_vectors.md, and for each statement a state and operands that meet its
hypotheses. -/

namespace Sys2Proof.Tests

open Sys2Proof.Machine

/-! ### Small states -/

/-- The start state of 95_test_vectors.md section 2.9. -/
def sample : State :=
  { params := { wordWidth := 32, storeSize := 8, capacity := 2 }
    regs := #v[11, 22, 0, 0, 0, 0, 0, 0]
    cache :=
      { slots := [{ valid := true, tag := 1, data := 11, rank := 0 },
          { valid := true, tag := 2, data := 22, rank := 1 }]
        count := 2 }
    mem := [(1, 11), (2, 22), (3, 33)]
    trace := []
    reply := none
    driver := [] }

/-- The same state with the two entries in the other slots. -/
def sampleSwapped : State := { sample with cache := { sample.cache with slots := sample.cache.slots.reverse } }

/-- A session of one slot, its cache empty (95_test_vectors.md V12 has these parameters). -/
def single : State :=
  { State.resetWith { wordWidth := 32, storeSize := 4, capacity := 1 } with mem := [(0, 7), (1, 8), (2, 9), (3, 10)] }

/-- The state an outcome leads to, the given one if it leads to none. -/
def after (s : State) : Host.Outcome State Fault Refusal → State
  | .next t => t
  | .fault _ => s
  | .refused _ => s

/-- One instruction on a state. -/
def ran (i : Instr) (s : State) : State := after s (exec i s)

/-- One step with a table word supplied. -/
def stepped (nbits w : Nat) (s : State) : State := after s (step (s.withFetchWord nbits w))

/-- A state with one action supplied. -/
def supplied (act : DriverAction) (s : State) : State := { s with driver := [act] }

/-- A read and a write of different addresses, as many as `sample` has slots. -/
def twoAccesses : List (Addr × Option Word) := [(5, none), (7, some 9)]

/-- A read, as many as `single` has slots. -/
def oneAccess : List (Addr × Option Word) := [(3, none)]

/-! ### What the checks refuse -/

theorem test_words_of_no_bits_refused : ¬ Params.legal { wordWidth := 0, storeSize := 8, capacity := 1 } := by
  decide
theorem test_store_of_no_words_refused : ¬ Params.legal { wordWidth := 32, storeSize := 0, capacity := 1 } := by decide
theorem test_store_beyond_addresses_refused : ¬ Params.legal { wordWidth := 32, storeSize := 16777217, capacity := 1 } := by
  decide
theorem test_cache_of_no_slots_refused : ¬ Params.legal { wordWidth := 32, storeSize := 8, capacity := 0 } := by decide
theorem test_extreme_parameters_legal :
    Params.legal { wordWidth := 1, storeSize := 1, capacity := 1 } ∧
      Params.legal { wordWidth := 64, storeSize := 16777216, capacity := 1 } := by decide
theorem test_session_of_no_slots_not_constructed :
    State.construct { wordWidth := 32, storeSize := 8, capacity := 0 } = none := by decide
theorem test_line_with_register_16_refused :
    assemble 32 (.load 16 0) = none ∧ assemble 32 (.store 16 0) = none ∧ assemble 32 (.add 16 0) = none ∧
      assemble 32 (.sub 16 0) = none := by decide
theorem test_line_with_address_above_24_bits_refused :
    assemble 32 (.load 0 16777216) = none ∧ assemble 32 (.store 0 16777216) = none ∧
      assemble 32 (.add 0 16777216) = none ∧ assemble 32 (.sub 0 16777216) = none ∧
      assemble 32 (.cacheRead 16777216) = none ∧ assemble 32 (.cacheWrite 16777216 0) = none := by decide
theorem test_instruction_with_value_above_width_refused :
    Instr.wellFormed 8 (.cacheWrite 0 256) = false ∧ Instr.wellFormed 8 (.cacheWrite 0 255) = true ∧
      assemble 8 (.cacheWrite 0 256) = none := by decide
theorem test_line_with_value_above_32_bits_refused : assemble 32 (.cacheWrite 0 4294967296) = none := by decide
theorem test_line_with_greatest_fields_assembled :
    assemble 32 (.add 15 16777215) = some (.add 15 16777215) ∧
      assemble 32 (.cacheWrite 16777215 4294967295) = some (.cacheWrite 16777215 4294967295) := by decide
theorem test_line_text : AsmLine.text (.load 0 10) = "LOAD R0,10" ∧ AsmLine.text (.sub 3 2) = "SUB R3,R2" := by
  decide

/-! ### Decoding: words written out bit by bit from R81 and R84 -/

/-- `cmd = 0`, `addr = 10`, `wdata = 0` (R81; 95_test_vectors.md section 2.10). -/
theorem test_decode_cache_read : decodeTableWord 64 (0 * 2 ^ 56 + 10 * 2 ^ 32 + 0) = some (.cacheRead 10) := by
  decide
/-- The `wdata` of a read is ignored (R81). -/
theorem test_decode_cache_read_ignores_data :
    decodeTableWord 64 (0 * 2 ^ 56 + 10 * 2 ^ 32 + 5) = some (.cacheRead 10) := by decide
/-- `cmd = 1`, `addr = 10`, `wdata = 5`. -/
theorem test_decode_cache_write :
    decodeTableWord 64 (1 * 2 ^ 56 + 10 * 2 ^ 32 + 5) = some (.cacheWrite 10 5) := by decide
/-- The same request of a session with 8-bit Words: 33 bits, `addr` from bit 8 (R81). -/
theorem test_decode_cache_write_8_bits :
    tableInstr 8 64 (1 * 2 ^ 32 + 10 * 2 ^ 8 + 5) = some (.cacheWrite 10 5) := by decide
/-- `op = 0000`, `a = 0111`, `b` all ones. -/
theorem test_decode_load :
    decodeI32 0b00000111111111111111111111111111 = .instr (.load 7 16777215) := by decide
/-- `op = 0001`, `a = 0000`, `b = 30`. -/
theorem test_decode_store : decodeI32 0b00010000000000000000000000011110 = .instr (.store 0 30) := by decide
/-- `op = 0010`, `a = 1111`, `b = 7`. -/
theorem test_decode_add : decodeI32 0b00101111000000000000000000000111 = .instr (.add 15 7) := by decide
/-- `op = 0011`, `a = 0011`, `b = 2`. -/
theorem test_decode_sub : decodeI32 0b00110011000000000000000000000010 = .instr (.sub 3 2) := by decide
/-- `op = 0100`, both operand fields set and ignored. -/
theorem test_decode_nop : decodeI32 0b01001010101111001101111011110000 = .instr .nop := by decide
/-- `op = 0101` is none of the five. -/
theorem test_decode_unknown :
    decodeI32 0b01010001000000000000000000000010 = .unknown 5 ∧ decodeTableWord 32 0x51000002 = none := by decide
theorem test_bits_above_format_are_no_command :
    decodeTableWord 32 4294967296 = none ∧ decodeTableWord 64 144115188075855872 = none := by decide

/-! ### One step of each instruction -/

/-- 95_test_vectors.md V3: a read hit makes no store access and becomes the newest entry. -/
theorem test_cache_read_hit :
    (ran (.cacheRead 1) sample).reply = some (.ok (some 11)) ∧
      (ran (.cacheRead 1) sample).entries = [⟨2, 22⟩, ⟨1, 11⟩] ∧ (ran (.cacheRead 1) sample).trace = [] := by
  decide
/-- S2: a read miss at a full cache evicts the oldest entry and reads the store once. -/
theorem test_cache_read_miss_evicts :
    (ran (.cacheRead 3) sample).reply = some (.ok (some 33)) ∧
      (ran (.cacheRead 3) sample).entries = [⟨2, 22⟩, ⟨3, 33⟩] ∧
      (ran (.cacheRead 3) sample).trace = [.mr 3 33] := by decide
/-- V7, V8: a write hit still writes the store, and updates the cached Word. -/
theorem test_cache_write_hit :
    (ran (.cacheWrite 1 99) sample).entries = [⟨2, 22⟩, ⟨1, 99⟩] ∧
      (ran (.cacheWrite 1 99) sample).mem = [(1, 99), (2, 22), (3, 33)] ∧
      (ran (.cacheWrite 1 99) sample).trace = [.mw 1 99] := by decide
/-- V12: a refused write changes neither store nor cache. -/
theorem test_cache_write_refused :
    (ran (.cacheWrite 8 1) sample).reply = some (.err (.outOfRange .addr 8)) ∧
      (ran (.cacheWrite 8 1) sample).cache = sample.cache ∧ (ran (.cacheWrite 8 1) sample).mem = sample.mem ∧
      (ran (.cacheWrite 8 1) sample).trace = [.merr .write 8] := by decide
/-- V30: the register id of a LOAD is refused after its cache read, which stands. -/
theorem test_load_refused_register :
    (stepped 32 0x09000003 sample).reply = some (.err (.outOfRange .reg 9)) ∧
      (stepped 32 0x09000003 sample).entries = [⟨2, 22⟩, ⟨3, 33⟩] ∧
      (stepped 32 0x09000003 sample).regs = sample.regs := by decide
/-- V20 and V41: the Word read goes to the register. -/
theorem test_load :
    (stepped 32 0x07000003 sample).regs = #v[11, 22, 0, 0, 0, 0, 0, 33] ∧
      (stepped 32 0x07000003 sample).reply = some (.ok none) := by decide
/-- V21: the register's Word goes to the store and to the newest entry. -/
theorem test_store :
    (stepped 32 0x10000003 sample).mem = [(1, 11), (2, 22), (3, 11)] ∧
      (stepped 32 0x10000003 sample).entries = [⟨2, 22⟩, ⟨3, 11⟩] := by decide
/-- V35: the register is refused before the address is looked at. -/
theorem test_store_refuses_register_first :
    (stepped 32 0x19000009 sample).reply = some (.err (.outOfRange .reg 9)) ∧
      (stepped 32 0x19000009 sample).trace = [] := by decide
/-- V23: the sum wraps. -/
theorem test_add_wraps :
    (stepped 32 0x20000001 { sample with regs := #v[0xFFFFFFFF, 1, 0, 0, 0, 0, 0, 0] }).regs =
      #v[0, 1, 0, 0, 0, 0, 0, 0] := by decide
/-- The sum wraps at the session's width (R9). -/
theorem test_add_wraps_at_8_bits :
    (stepped 32 0x20000001 { sample with
      params := { sample.params with wordWidth := 8 }, regs := #v[255, 3, 0, 0, 0, 0, 0, 0] }).regs =
      #v[2, 3, 0, 0, 0, 0, 0, 0] := by decide
/-- V38, V40: `b` is refused first, and all of its 24 bits are checked. -/
theorem test_add_refuses_b_first :
    (stepped 32 0x28000009 sample).reply = some (.err (.outOfRange .reg 9)) ∧
      (stepped 32 0x20FFFFFF sample).reply = some (.err (.outOfRange .reg 16777215)) := by decide
/-- V25, V24: operand1 minus operand2, wrapping below zero. -/
theorem test_sub_order_and_wrap :
    (stepped 32 0x31000000 sample).regs = #v[11, 11, 0, 0, 0, 0, 0, 0] ∧
      (stepped 32 0x30000001 sample).regs = #v[4294967285, 22, 0, 0, 0, 0, 0, 0] := by decide
/-- V39: `a` is refused first. -/
theorem test_sub_refuses_a_first :
    (stepped 32 0x38000009 sample).reply = some (.err (.outOfRange .reg 8)) := by decide
/-- V28b: no effect, whatever the ignored fields hold. -/
theorem test_nop : stepped 32 0x4FFFFFFF sample = { sample with reply := some (.ok none) } := by decide
/-- V29. -/
theorem test_unknown_opcode :
    after sample (step (supplied (.command (.i32 0x51000002)) sample)) =
      { sample with reply := some (.err (.unknownOpcode 5)) } := by decide
/-- A request of the requester port is run by a step as well. -/
theorem test_step_runs_request :
    (stepped 64 0x100000500000009 sample).entries = [⟨2, 22⟩, ⟨5, 9⟩] := by decide
/-- V16: the host's write is seen by the host and not by the cache. -/
theorem test_host_write_is_not_seen_by_cache :
    (after sample (step (supplied (.writeMem 2 9) sample))).mem = [(1, 11), (2, 9), (3, 33)] ∧
      (after sample (step (supplied (.writeMem 2 9) sample))).entries = sample.entries := by decide
theorem test_host_reads :
    (after sample (step (supplied (.readMem 3) sample))).reply = some (.ok (some 33)) ∧
      (after sample (step (supplied (.readReg 1) sample))).reply = some (.ok (some 22)) := by decide
/-- V12, `C = 1`: each new address evicts the one before. -/
theorem test_single_slot :
    (ran (.cacheRead 1) (ran (.cacheRead 0) single)).entries = [⟨1, 8⟩] := by decide
/-- 41_recency_tracker.md R144: the fill takes the lowest-numbered invalid slot, the touch renumbers. -/
theorem test_slots_after_fill_and_touch :
    (ran (.cacheRead 1) (ran (.cacheRead 2) (ran (.cacheRead 1) { sample with
      params := { wordWidth := 32, storeSize := 8, capacity := 3 }, cache := Cache.reset 3 }))).cache =
      { slots := [⟨true, 1, 11, 1⟩, ⟨true, 2, 22, 0⟩, ⟨false, 0, 0, 0⟩], count := 2 } := by decide

/-! ### Hypotheses of the statements, met together -/

theorem witness_sample_invariant : sample.Inv ∧ sample.Coherent := by decide
theorem witness_single_invariant : single.Inv ∧ single.Coherent := by decide
theorem witness_ResetClearsStoreCacheAndRegisters :
    Slot.reset ∈ (State.resetWith { wordWidth := 32, storeSize := 4, capacity := 1 }).cache.slots ∧
      7 < 8 := by decide
theorem witness_ResetEstablishesInvariant :
    Params.legal { wordWidth := 1, storeSize := 16777216, capacity := 1 } ∧
      ¬ Params.legal { wordWidth := 0, storeSize := 1, capacity := 1 } ∧
      ¬ Params.legal { wordWidth := 32, storeSize := 0, capacity := 1 } ∧
      ¬ Params.legal { wordWidth := 32, storeSize := 16777217, capacity := 1 } ∧
      ¬ Params.legal { wordWidth := 32, storeSize := 1, capacity := 0 } := by decide
theorem witness_StepRunsSuppliedAction :
    sample.params.legal ∧ sample.driver = [] ∧
      (supplied (.command (.i32 0x4FFFFFFF)) sample).driver = [.command (.i32 0x4FFFFFFF)] ∧
      decode sample.params.wordWidth (.i32 0x4FFFFFFF) = .instr .nop ∧
      decode sample.params.wordWidth (.i32 0x50000000) = .unknown 5 ∧
      (supplied (.readReg 7) sample).driver = [.readReg 7] ∧
      (supplied (.readMem 8) sample).driver = [.readMem 8] ∧
      (supplied (.writeMem 7 1) sample).driver = [.writeMem 7 1] := by decide
theorem witness_FetchWordRunsNext :
    sample.params.legal ∧ sample.params.wordWidth = 32 ∧ tableInstr 32 32 0x4FFFFFFF = some .nop ∧
      decodeTableWord 32 0x4FFFFFFF = some .nop ∧
      decodeTableWord 64 0x1FFFFFFFFFFFFFF = some (.cacheWrite 16777215 4294967295) := by decide
theorem witness_EveryStepCompletes : single.params.legal := by decide
theorem witness_IllegalParametersAreRefused :
    (State.resetWith { wordWidth := 0, storeSize := 1, capacity := 1 }).params.wordWidth = 0 ∧
      (State.resetWith { wordWidth := 32, storeSize := 0, capacity := 1 }).params.storeSize = 0 ∧
      16777216 < (State.resetWith { wordWidth := 32, storeSize := 16777217, capacity := 1 }).params.storeSize ∧
      (State.resetWith { wordWidth := 32, storeSize := 1, capacity := 0 }).params.capacity = 0 := by decide
theorem witness_HostReadRegisterHasNoSideEffect : 7 < 8 ∧ 8 ≤ 8 := by decide
theorem witness_HostReadMemoryBypassesCache :
    7 < sample.params.storeSize ∧ sample.params.storeSize ≤ 8 ∧ (7 : Addr).toNat = 7 ∧
      sample.params.isWord 4294967295 := by decide
theorem witness_HostWriteMemoryBypassesCache :
    sample.params.isWord 4294967295 ∧ 7 < sample.params.storeSize ∧ sample.params.storeSize ≤ 8 := by decide
theorem witness_EveryRequestIsLegal :
    (0x0FFFFFFFFFFFFFF : BitVec (1 + 24 + 32)).toNat < 2 ^ (24 + 32) ∧
      2 ^ (24 + 32) ≤ (0x100000000000000 : BitVec (1 + 24 + 32)).toNat := by decide
theorem witness_OpcodeMapByMatchAndMask :
    (0x4FFFFFFF : BitVec 32) &&& 0xF0000000 = 0x40000000 ∧ 0x50000000 ≤ (0x50000000 : BitVec 32).toNat := by
  decide
theorem witness_DecodeEncodeAgree :
    opField 0x00FFFFFF = 0 ∧ opField 0x1FFFFFFF = 1 ∧ opField 0x2FFFFFFF = 2 ∧ opField 0x3FFFFFFF = 3 ∧
      opField 0x4FFFFFFF = 4 ∧ 5 ≤ (opField 0x50000000).toNat ∧
      Instr.wellFormed 32 (.cacheWrite 16777215 4294967295) = true ∧ 5 ≤ (5 : Nibble).toNat ∧
      decode 32 (.creq 0x1FFFFFFFFFFFFFF) = .instr (.cacheWrite 16777215 4294967295) ∧
      (0x3FFFFFFF : BitVec 32).toNat < 0x40000000 ∧
      0x40000000 ≤ (0x40000000 : BitVec 32).toNat := by decide
theorem witness_CacheReadHitMissOrRefused :
    sample.Inv ∧ lookupEntry sample.entries 2 = some 1 ∧
      (lookupEntry sample.entries 7 = none ∧ (7 : Addr).toNat < sample.params.storeSize) ∧
      sample.params.storeSize ≤ (8 : Addr).toNat := by decide
theorem witness_CacheWriteThroughAndAllocate :
    sample.Inv ∧ sample.params.isWord 4294967295 ∧ ((2 : Addr).toNat < sample.params.storeSize ∧
      lookupEntry sample.entries 2 = some 1) ∧
      ((7 : Addr).toNat < sample.params.storeSize ∧ lookupEntry sample.entries 7 = none) ∧
      sample.params.storeSize ≤ (8 : Addr).toNat := by decide
theorem witness_WriteThroughCoherence :
    (7 : Addr).toNat < sample.params.storeSize ∧ sample.params.isWord 4294967295 ∧
      ∀ i ∈ [Instr.cacheRead 1, .cacheRead 2, .cacheRead 3, .store 0 3, .cacheWrite 8 1], storesTo i ≠ some 7 := by
  decide
theorem witness_WriteThenReadReturnsWord :
    sample.Inv ∧ (7 : Addr).toNat < sample.params.storeSize ∧ sample.params.isWord 4294967295 := by decide
theorem witness_RepeatedReadsAgree :
    sample.Inv ∧ sample.Coherent ∧ (7 : Addr).toNat < sample.params.storeSize ∧
      ∀ i ∈ [Instr.cacheRead 1, .cacheRead 2, .store 0 3, .load 9 4, .cacheWrite 8 1, .nop],
        storesTo i ≠ some 7 := by decide
theorem witness_CapacityNeverExceeded : single.Inv := by decide
theorem witness_LeastRecentlyUsedIsEvicted :
    sample.Inv ∧ twoAccesses.length = sample.params.capacity ∧ (twoAccesses.map Prod.fst).Nodup ∧
      (∀ p ∈ twoAccesses, p.1.toNat < sample.params.storeSize) ∧ (6 : Addr).toNat < sample.params.storeSize ∧
      (6 : Addr) ∉ twoAccesses.map Prod.fst ∧ twoAccesses.map Prod.fst = 5 :: [7] :=
  ⟨by decide, by decide, by decide, by simp [twoAccesses, sample], by decide, by decide, by decide⟩
theorem witness_LeastRecentlyUsedIsEvicted_single :
    single.Inv ∧ oneAccess.length = single.params.capacity ∧ (oneAccess.map Prod.fst).Nodup ∧
      (∀ p ∈ oneAccess, p.1.toNat < single.params.storeSize) ∧ (0 : Addr).toNat < single.params.storeSize ∧
      (0 : Addr) ∉ oneAccess.map Prod.fst ∧ oneAccess.map Prod.fst = 3 :: [] :=
  ⟨by decide, by decide, by decide, by simp [oneAccess, single, State.resetWith], by decide, by decide,
    by decide⟩
theorem witness_CacheHoldsLastUsedAddresses :
    sample.Inv ∧ ∀ p ∈ twoAccesses ++ twoAccesses, p.1.toNat < sample.params.storeSize :=
  ⟨by decide, by simp [twoAccesses, sample]⟩
theorem witness_SlotLevelSimulatesAbstractCache :
    sample.Inv ∧ single.Inv ∧ sample.params.isWord 4294967295 := by decide
theorem witness_SlotPlacementIsUnobservable :
    sample.Inv ∧ sampleSwapped.Inv ∧ sample.params = sampleSwapped.params ∧ sample.regs = sampleSwapped.regs ∧
      sample.abs = sampleSwapped.abs ∧ sample.cache ≠ sampleSwapped.cache := by decide
theorem witness_VictimIsUnique : sample.Inv ∧ 0 < sample.cache.count := by decide
theorem witness_RanksAndCountFitTheirRegisters :
    sample.Inv ∧ (⟨true, 2, 22, 1⟩ : Slot) ∈ sample.cache.validSlots ∧
      (ran (.cacheRead 0) single).Inv ∧
      (⟨true, 0, 7, 0⟩ : Slot) ∈ (ran (.cacheRead 0) single).cache.validSlots := by
  decide
theorem witness_ValidSlotsStayValid :
    sample.Inv ∧
      step (supplied (.command (encode 32 (.cacheRead 3))) sample) = .next (ran (.cacheRead 3) sample) ∧
      sample.cache.slots[0]? = some ⟨true, 1, 11, 0⟩ := ⟨by decide, rfl, rfl⟩
theorem witness_LoadReadsThroughCache :
    sample.Inv ∧ (7 : Addr).toNat < sample.params.storeSize ∧ (7 : Nibble).toNat < 8 ∧ 8 ≤ (8 : Nibble).toNat ∧
      sample.params.storeSize ≤ (8 : Addr).toNat := by decide
theorem witness_StoreWritesThroughCache :
    sample.Inv ∧ (7 : Nibble).toNat < 8 ∧ (7 : Addr).toNat < sample.params.storeSize ∧
      sample.params.storeSize ≤ (8 : Addr).toNat ∧ 8 ≤ (8 : Nibble).toNat := by decide
theorem witness_AddWritesSumModulo :
    (7 : Nibble).toNat < 8 ∧ (7 : Addr).toNat < 8 ∧ 8 ≤ (8 : Addr).toNat ∧ 8 ≤ (8 : Nibble).toNat := by decide
theorem witness_SubWritesDifferenceModulo :
    sample.Inv ∧ (7 : Nibble).toNat < 8 ∧ (7 : Addr).toNat < 8 ∧ 8 ≤ (8 : Nibble).toNat ∧
      8 ≤ (8 : Addr).toNat := by decide
theorem witness_UnknownOpcodeReportsTag :
    sample.params.legal ∧ 5 ≤ (5 : Nibble).toNat ∧
      (supplied (.command (.i32 (encodeI32 5 1 2))) sample).driver = .command (.i32 (encodeI32 5 1 2)) :: [] := by
  decide
theorem witness_SubUndoesAdd :
    sample.Inv ∧ (7 : Nibble).toNat < 8 ∧ (0 : Addr).toNat < 8 ∧ (7 : Nibble).toNat ≠ (0 : Addr).toNat ∧
      (7 : Nibble).toNat = (7 : Addr).toNat := by decide
theorem witness_ErrorsFollowTheTable : sample.Inv ∧ expectedError sample.params (.load 9 8) ≠ none := by decide
theorem witness_OnlyFailingLoadLeavesPartialState :
    sample.Inv ∧ exec (.load 8 3) sample = .next (ran (.load 8 3) sample) ∧
      (ran (.load 8 3) sample).reply = some (.err (.outOfRange .reg 8)) ∧
      (3 : Addr).toNat < sample.params.storeSize ∧ 8 ≤ (8 : Nibble).toNat ∧
      exec (.load 8 8) sample = .next (ran (.load 8 8) sample) ∧
      (ran (.load 8 8) sample).reply = some (.err (.outOfRange .addr 8)) ∧
      sample.params.storeSize ≤ (8 : Addr).toNat :=
  ⟨by decide, rfl, by decide, by decide, by decide, rfl, by decide, by decide⟩
theorem witness_InstructionResponseIsExact :
    sample.Inv ∧ exec (.add 0 16777215) sample = .next (ran (.add 0 16777215) sample) ∧
      (ran (.add 0 16777215) sample).reply = some (.err (.outOfRange .reg 16777215)) ∧
      exec (.load 0 7) sample = .next (ran (.load 0 7) sample) ∧
      (ran (.load 0 7) sample).reply = some (.ok none) :=
  ⟨by decide, rfl, by decide, rfl, by decide⟩
theorem witness_CacheResponseLayout :
    sample.Inv ∧ sample.params.isWord 4294967295 ∧ (7 : Addr).toNat < sample.params.storeSize ∧
      ¬ (8 : Addr).toNat < sample.params.storeSize := by
  decide
theorem witness_EarlierAnswersAreNotRead :
    (supplied (.readReg 0) sample).params.legal ∧ (supplied (.readReg 0) sample).driver ≠ [] := by decide
theorem witness_OnlyLoadAddSubWriteRegisters :
    7 < 8 ∧ exec (.load 0 3) sample = .next (ran (.load 0 3) sample) ∧ writesReg (.load 0 3) ≠ some 7 :=
  ⟨by decide, rfl, by decide⟩
theorem witness_OnlyWritesChangeTheStore :
    exec (.store 0 3) sample = .next (ran (.store 0 3) sample) ∧
      (∀ addr, storesTo (.store 0 3) = some addr → addr.toNat ≠ 7) ∧ storesTo (.store 0 3) = some 3 ∧
      step (supplied (.command (encode 32 (.store 0 3))) sample) = .next (ran (.store 0 3) sample) ∧
      (ran (.store 0 3) sample).mem.read 3 ≠ (supplied (.command (encode 32 (.store 0 3))) sample).mem.read 3 :=
  ⟨rfl, by simp [storesTo], rfl, rfl, by decide⟩
theorem witness_MemoryPortAccessCounts :
    sample.Inv ∧ exec (.load 0 7) sample = .next (ran (.load 0 7) sample) := ⟨by decide, rfl⟩
theorem witness_StepKeepsInvariant :
    (supplied (.command (encode 32 (.cacheWrite 7 5))) sample).Inv ∧
      step (supplied (.command (encode 32 (.cacheWrite 7 5))) sample) = .next (ran (.cacheWrite 7 5) sample) :=
  ⟨by decide, rfl⟩
theorem witness_StepKeepsCoherence :
    (supplied (.writeMem 3 5) sample).Inv ∧ (supplied (.writeMem 3 5) sample).Coherent ∧
      (supplied (.writeMem 3 5) sample).HostObeys ∧
      step (supplied (.writeMem 3 5) sample) =
        .next (after sample (step (supplied (.writeMem 3 5) sample))) := by
  refine ⟨by decide, by decide, ?_, rfl⟩
  intro addr v h
  obtain ⟨rfl, rfl⟩ : 3 = addr ∧ (5 : Word) = v := by simpa [supplied] using h
  decide
theorem witness_HostWriteBehindCacheIsStale :
    (supplied (.writeMem (2 : Addr).toNat 9) sample).Inv ∧
      (supplied (.writeMem (2 : Addr).toNat 9) sample).params.isWord 9 ∧
      (⟨2, 22⟩ : Entry) ∈ (supplied (.writeMem (2 : Addr).toNat 9) sample).entries ∧ (9 : Word) ≠ 22 ∧
      (supplied (.writeMem (2 : Addr).toNat 9) sample).driver = .writeMem (2 : Addr).toNat 9 :: [] ∧
      ∀ i ∈ [Instr.cacheRead 2, .cacheRead 5, .cacheRead 6, .store 0 7], storesTo i ≠ some 2 := by decide
theorem witness_CacheIsTransparentInValues : sample.Inv ∧ sample.Coherent := by decide

end Sys2Proof.Tests
end

section
/-! PROOFS. The formats of 30_encoding.md: the fields of an I32 word and of a request as numbers, that building and
taking apart undo each other, and the decoder and encoder by cases on the field that tells the commands apart. -/

namespace Sys2Proof.Encoding

open Sys2Proof.Laws Sys2Proof.Machine

/-- Concatenation puts the left number above the right one. -/
theorem toNat_append_eq {m n : Nat} (x : BitVec m) (y : BitVec n) :
    (x ++ y).toNat = x.toNat * 2 ^ n + y.toNat := by
  rw [BitVec.toNat_append, ← Nat.shiftLeft_add_eq_or_of_lt y.isLt, Nat.shiftLeft_eq]

/-! ### The fields of an instruction word (R84) -/

theorem encodeI32_toNat (op a : Nibble) (b : Addr) :
    (encodeI32 op a b).toNat = op.toNat * 2 ^ 28 + a.toNat * 2 ^ 24 + b.toNat := by
  simp only [encodeI32, toNat_append_eq]
  omega

theorem opField_toNat (w : BitVec 32) : (opField w).toNat = w.toNat / 2 ^ 28 := by
  simp only [opField, BitVec.extractLsb'_toNat, Nat.shiftRight_eq_div_pow]
  omega

theorem aField_toNat (w : BitVec 32) : (aField w).toNat = w.toNat / 2 ^ 24 % 2 ^ 4 := by
  simp only [aField, BitVec.extractLsb'_toNat, Nat.shiftRight_eq_div_pow]

theorem bField_toNat (w : BitVec 32) : (bField w).toNat = w.toNat % 2 ^ 24 := by
  simp only [bField, BitVec.extractLsb'_toNat, Nat.shiftRight_zero]

@[simp] theorem aField_encodeI32 (op a : Nibble) (b : Addr) : aField (encodeI32 op a b) = a := by
  apply BitVec.eq_of_toNat_eq
  rw [aField_toNat, encodeI32_toNat]
  omega

@[simp] theorem bField_encodeI32 (op a : Nibble) (b : Addr) : bField (encodeI32 op a b) = b :=
  BitVec.extractLsb'_append_eq_right

/-- A word is what its three fields build. -/
@[simp] theorem encodeI32_fields (w : BitVec 32) : encodeI32 (opField w) (aField w) (bField w) = w := by
  apply BitVec.eq_of_toNat_eq
  rw [encodeI32_toNat, opField_toNat, aField_toNat, bField_toNat]
  omega

/-! ### The fields of a request (R81) -/

section Request
variable {W : Nat}

theorem encodeCreq_toNat (cmd : BitVec 1) (addr : Addr) (v : BitVec W) :
    (encodeCreq cmd addr v).toNat = cmd.toNat * 2 ^ (24 + W) + addr.toNat * 2 ^ W + v.toNat := by
  simp only [encodeCreq, toNat_append_eq, Nat.pow_add, Nat.add_mul, Nat.mul_assoc]

/-- The `cmd` bit is the quotient: the request has no bit above it. -/
theorem cmdField_toNat (q : BitVec (1 + 24 + W)) : (cmdField q).toNat = q.toNat / 2 ^ (24 + W) := by
  have hq : q.toNat < 2 ^ 1 * 2 ^ (24 + W) := by
    rw [← Nat.pow_add, ← Nat.add_assoc]
    exact q.isLt
  simp only [cmdField, BitVec.extractLsb'_toNat, Nat.shiftRight_eq_div_pow]
  exact Nat.mod_eq_of_lt (Nat.div_lt_of_lt_mul (Nat.mul_comm _ _ ▸ hq))

theorem addrField_eq (q : BitVec (1 + 24 + W)) : addrField q = BitVec.ofNat 24 (q.toNat / 2 ^ W) := by
  simp only [addrField, BitVec.extractLsb', Nat.shiftRight_eq_div_pow]

theorem wdataField_toNat (q : BitVec (1 + 24 + W)) : (wdataField q).toNat = q.toNat % 2 ^ W := by
  simp only [wdataField, BitVec.extractLsb'_toNat, Nat.shiftRight_zero]

@[simp] theorem addrField_encodeCreq (cmd : BitVec 1) (addr : Addr) (v : BitVec W) :
    addrField (encodeCreq cmd addr v) = addr := by
  rw [addrField, encodeCreq, BitVec.extractLsb'_append_eq_of_le (Nat.le_refl W), Nat.sub_self]
  exact BitVec.extractLsb'_append_eq_right

@[simp] theorem wdataField_encodeCreq (cmd : BitVec 1) (addr : Addr) (v : BitVec W) :
    wdataField (encodeCreq cmd addr v) = v :=
  BitVec.extractLsb'_append_eq_right

/-- A request is what its three fields build. -/
@[simp] theorem encodeCreq_fields (q : BitVec (1 + 24 + W)) :
    encodeCreq (cmdField q) (addrField q) (wdataField q) = q := by
  have h : cmdField q ++ addrField q = q.extractLsb' W (1 + 24) :=
    BitVec.extractLsb'_append_extractLsb'_eq_extractLsb' (Nat.add_comm 24 W)
  rw [encodeCreq, h]
  exact BitVec.extractLsb'_append_extractLsb'

theorem cmdField_eq_zero_iff (q : BitVec (1 + 24 + W)) : cmdField q = 0 ↔ q.toNat < 2 ^ (24 + W) := by
  rw [← BitVec.toNat_inj, cmdField_toNat]
  exact Nat.div_eq_zero_iff_lt (Nat.two_pow_pos _)

theorem cmdField_eq_one_iff (q : BitVec (1 + 24 + W)) : cmdField q = 1 ↔ 2 ^ (24 + W) ≤ q.toNat := by
  rw [← Nat.not_lt, ← cmdField_eq_zero_iff]
  rcases BitVec.eq_zero_or_eq_one (cmdField q) with h | h <;> simp [h]

/-! ### Decoding a request (R81, R85) -/

theorem decodeCreq_read {q : BitVec (1 + 24 + W)} (h : cmdField q = 0) :
    decodeCreq q = .cacheRead (addrField q) := by
  simp [decodeCreq, h]

theorem decodeCreq_write {q : BitVec (1 + 24 + W)} (h : cmdField q = 1) :
    decodeCreq q = .cacheWrite (addrField q) (wdataField q).toNat := by
  simp [decodeCreq, h]

theorem decodeCreq_eq_read_iff (q : BitVec (1 + 24 + W)) :
    (∃ addr, decodeCreq q = .cacheRead addr) ↔ cmdField q = 0 := by
  rcases BitVec.eq_zero_or_eq_one (cmdField q) with h | h
  · simp [decodeCreq_read h, h]
  · simp [decodeCreq_write h, h]

theorem decodeCreq_eq_write_iff (q : BitVec (1 + 24 + W)) :
    (∃ addr v, decodeCreq q = .cacheWrite addr v) ↔ cmdField q = 1 := by
  rcases BitVec.eq_zero_or_eq_one (cmdField q) with h | h
  · simp [decodeCreq_read h, h]
  · simp [decodeCreq_write h, h]

/-- The Word of a decoded `CACHE.WRITE` is on the data lines, so it fits them. -/
theorem decodeCreq_wellFormed (q : BitVec (1 + 24 + W)) : (decodeCreq q).wellFormed W = true := by
  rcases BitVec.eq_zero_or_eq_one (cmdField q) with h | h
  · rw [decodeCreq_read h, Instr.wellFormed]
  · rw [decodeCreq_write h, Instr.wellFormed]
    exact decide_eq_true (wdataField q).isLt

end Request

/-! ### Decoding an instruction word (R86, R95) -/

/-- Every word is of one of the five recognised tags or of another. -/
theorem opField_cases (w : BitVec 32) :
    opField w = 0 ∨ opField w = 1 ∨ opField w = 2 ∨ opField w = 3 ∨ opField w = 4 ∨ 5 ≤ (opField w).toNat := by
  bv_omega

section Tag
variable {w : BitVec 32}

theorem decodeI32_load (h : opField w = 0) : decodeI32 w = .instr (.load (aField w) (bField w)) := by
  simp [decodeI32, h]

theorem decodeI32_store (h : opField w = 1) : decodeI32 w = .instr (.store (aField w) (bField w)) := by
  simp [decodeI32, h]

theorem decodeI32_add (h : opField w = 2) : decodeI32 w = .instr (.add (aField w) (bField w)) := by
  simp [decodeI32, h]

theorem decodeI32_sub (h : opField w = 3) : decodeI32 w = .instr (.sub (aField w) (bField w)) := by
  simp [decodeI32, h]

theorem decodeI32_nop (h : opField w = 4) : decodeI32 w = .instr .nop := by
  simp [decodeI32, h]

theorem decodeI32_unknown (h : 5 ≤ (opField w).toNat) : decodeI32 w = .unknown (opField w) := by
  unfold decodeI32
  split
  case h_6 => rfl
  all_goals omega

/-- A decoded instruction travels as a word, whose tag is its number in the opcode map (R85). -/
theorem opField_of_decodeI32 {i : Instr} (h : decodeI32 w = .instr i) :
    EncodingFormat.onRequesterPort i = false ∧ (opField w).toNat = EncodingFormat.number i := by
  unfold decodeI32 at h
  split at h <;> cases h <;> exact ⟨rfl, ‹_›⟩

/-- What a word decodes to has no Word to fit. -/
theorem wellFormed_of_decodeI32 {i : Instr} (W : Nat) (h : decodeI32 w = .instr i) : i.wellFormed W = true := by
  have hport := (opField_of_decodeI32 h).1
  cases i with
  | cacheWrite addr v => cases hport
  | _ => rfl

theorem le_opField_of_decodeI32 {tag : Nibble} (h : decodeI32 w = .unknown tag) : 5 ≤ (opField w).toNat := by
  by_contra hlt
  rcases opField_cases w with ho | ho | ho | ho | ho | ho
  · cases (decodeI32_load ho).symm.trans h
  · cases (decodeI32_store ho).symm.trans h
  · cases (decodeI32_add ho).symm.trans h
  · cases (decodeI32_sub ho).symm.trans h
  · cases (decodeI32_nop ho).symm.trans h
  · exact hlt ho

end Tag

/-! ### The opcode map's masks (R85) -/

theorem encodeI32_and (op op' a a' : Nibble) (b b' : Addr) :
    encodeI32 op a b &&& encodeI32 op' a' b' = encodeI32 (op &&& op') (a &&& a') (b &&& b') :=
  BitVec.and_append.trans (congrArg (· ++ (b &&& b')) BitVec.and_append)

theorem encodeCreq_and {W : Nat} (cmd cmd' : BitVec 1) (addr addr' : Addr) (v v' : BitVec W) :
    encodeCreq cmd addr v &&& encodeCreq cmd' addr' v' =
      encodeCreq (cmd &&& cmd') (addr &&& addr') (v &&& v') :=
  BitVec.and_append.trans (congrArg (· ++ (v &&& v')) BitVec.and_append)

/-- The mask of an I32 row keeps the tag and clears the operands. -/
theorem and_opMask (w : BitVec 32) : w &&& 0xF0000000 = encodeI32 (opField w) 0 0 := by
  have hmask : (0xF0000000 : BitVec 32) = encodeI32 (BitVec.allOnes 4) 0 0 := rfl
  conv_lhs => rw [hmask, ← encodeI32_fields w, encodeI32_and]
  simp only [BitVec.and_allOnes, BitVec.ofNat_eq_ofNat, BitVec.and_zero]

theorem opMask_match_iff (w : BitVec 32) (op : Nibble) :
    w &&& 0xF0000000 = encodeI32 op 0 0 ↔ opField w = op := by
  rw [and_opMask]
  refine ⟨fun h => ?_, fun h => by rw [h]⟩
  simpa only [EncodingFormat.opField_encodeI32] using congrArg opField h

/-- The mask of a request row keeps the `cmd` bit and clears the rest, at the default width. -/
theorem cmdMask_match_iff (q : BitVec (1 + 24 + 32)) (cmd : BitVec 1) :
    q &&& 0x100000000000000 = encodeCreq cmd 0 (0 : BitVec 32) ↔ cmdField q = cmd := by
  have hmask : (0x100000000000000 : BitVec (1 + 24 + 32)) = encodeCreq (BitVec.allOnes 1) 0 (0 : BitVec 32) := rfl
  have hand : q &&& 0x100000000000000 = encodeCreq (cmdField q) 0 (0 : BitVec 32) := by
    conv_lhs => rw [hmask, ← encodeCreq_fields q, encodeCreq_and]
    simp only [BitVec.and_allOnes, BitVec.ofNat_eq_ofNat, BitVec.and_zero]
  rw [hand]
  refine ⟨fun h => ?_, fun h => by rw [h]⟩
  simpa only [EncodingFormat.cmdField_encodeCreq] using congrArg cmdField h

/-! ### Round trips (R95) -/

@[simp] theorem decode_creq_toNat {W : Nat} (q : BitVec (1 + 24 + W)) :
    decode W (.creq q.toNat) = .instr (decodeCreq q) := by
  rw [decode, BitVec.ofNat_toNat, BitVec.setWidth_eq]

/-- Decoding undoes encoding, for every instruction that has an encoding. -/
theorem decode_encode {W : Nat} {i : Instr} (hi : i.wellFormed W = true) : decode W (encode W i) = .instr i := by
  have hop := EncodingFormat.opField_encodeI32
  have hcmd := fun cmd addr => EncodingFormat.cmdField_encodeCreq (W := W) cmd addr
  cases i with
  | cacheRead addr => rw [encode, decode_creq_toNat, decodeCreq_read (hcmd _ _ _), addrField_encodeCreq]
  | cacheWrite addr v =>
    have hv : v < 2 ^ W := of_decide_eq_true hi
    rw [encode, decode_creq_toNat, decodeCreq_write (hcmd _ _ _), addrField_encodeCreq, wdataField_encodeCreq,
      BitVec.toNat_ofNat, Nat.mod_eq_of_lt hv]
  | load a b => rw [encode, decode, decodeI32_load (hop _ _ _), aField_encodeI32, bField_encodeI32]
  | store a b => rw [encode, decode, decodeI32_store (hop _ _ _), aField_encodeI32, bField_encodeI32]
  | add a b => rw [encode, decode, decodeI32_add (hop _ _ _), aField_encodeI32, bField_encodeI32]
  | sub a b => rw [encode, decode, decodeI32_sub (hop _ _ _), aField_encodeI32, bField_encodeI32]
  | nop => rw [encode, decode, decodeI32_nop (hop _ _ _)]

theorem decode_encode_unknown {W : Nat} {tag : Nibble} (ht : 5 ≤ tag.toNat) :
    decode W (encodeDecoded W (.unknown tag)) = .unknown tag := by
  have hop := EncodingFormat.opField_encodeI32 tag 0 0
  rw [encodeDecoded, decode, decodeI32_unknown (by rwa [hop]), hop]

/-- Encoding undoes decoding on the words whose operands all mean something. -/
theorem encode_decodeI32_of_lt (W : Nat) {w : BitVec 32} (h : (opField w).toNat < 4) :
    encodeDecoded W (decodeI32 w) = .i32 w := by
  rcases opField_cases w with ho | ho | ho | ho | ho | ho
  · rw [decodeI32_load ho, encodeDecoded, encode, ← ho, encodeI32_fields]
  · rw [decodeI32_store ho, encodeDecoded, encode, ← ho, encodeI32_fields]
  · rw [decodeI32_add ho, encodeDecoded, encode, ← ho, encodeI32_fields]
  · rw [decodeI32_sub ho, encodeDecoded, encode, ← ho, encodeI32_fields]
  · simp [ho] at h
  · omega

/-- On the other words encoding zeroes the ignored operands (R95). -/
theorem encode_decodeI32_of_ge (W : Nat) {w : BitVec 32} (h : 4 ≤ (opField w).toNat) :
    encodeDecoded W (decodeI32 w) = .i32 (encodeI32 (opField w) 0 0) := by
  rcases Nat.eq_or_lt_of_le h with h4 | h5
  · have ho : opField w = 4 := BitVec.eq_of_toNat_eq h4.symm
    rw [decodeI32_nop ho, ho, encodeDecoded, encode]
  · rw [decodeI32_unknown h5, encodeDecoded]

theorem wellFormed_of_decode {W : Nat} {c : Command} {i : Instr} (h : decode W c = .instr i) :
    i.wellFormed W = true := by
  cases c with
  | i32 w => exact wellFormed_of_decodeI32 W h
  | creq n =>
    cases h
    exact decodeCreq_wellFormed _

/-! ### The statements -/

/-- Settles O14: the decoder's equations by tag, and the round trips of both directions. -/
theorem decodeEncodeAgree : Obligations.DecodeEncodeAgree := by
  refine ⟨fun w => ⟨decodeI32_load, decodeI32_store, decodeI32_add, decodeI32_sub, decodeI32_nop,
      decodeI32_unknown⟩, fun W a b => ⟨rfl, rfl, rfl, rfl, rfl, fun tag => rfl⟩, fun W i => decode_encode,
    fun W tag => decode_encode_unknown, fun W w hw => encode_decodeI32_of_lt W ?_,
    fun W w hw => encode_decodeI32_of_ge W ?_, fun W c i => wellFormed_of_decode⟩
  all_goals rw [opField_toNat]; omega

/-- Settles O11: the word and its three fields as numbers. -/
theorem instructionWordLayout : Obligations.InstructionWordLayout :=
  ⟨encodeI32_toNat, fun w => ⟨opField_toNat w, aField_toNat w, bField_toNat w⟩⟩

/-- Settles O12: a value's place against `2^(AW+W)` is its `cmd` bit. -/
theorem everyRequestIsLegal : Obligations.EveryRequestIsLegal := by
  refine fun W => ⟨encodeCreq_toNat, fun q => ⟨fun hq => ?_, fun hq => ?_⟩, fun addr v => ⟨rfl, rfl⟩⟩
  · rw [decodeCreq_read ((cmdField_eq_zero_iff q).2 hq), addrField_eq]
  · rw [decodeCreq_write ((cmdField_eq_one_iff q).2 hq), addrField_eq, wdataField_toNat]

/-- Settles O13: each row's match under its mask is the row's number in the tag or in the `cmd` bit. -/
theorem opcodeMapByMatchAndMask : Obligations.OpcodeMapByMatchAndMask := by
  refine ⟨fun w => ?_, fun q => ⟨?_, ?_⟩, rfl⟩
  · have number {i : Instr} {op : Nibble} (hop : EncodingFormat.number i = op.toNat)
        (h : decodeI32 w = .instr i) : opField w = op :=
      BitVec.eq_of_toNat_eq ((opField_of_decodeI32 h).2.trans hop)
    have hle : 5 ≤ (opField w).toNat ↔ 0x50000000 ≤ w.toNat := by
      rw [opField_toNat]; omega
    exact ⟨.trans ⟨fun ⟨_, _, h⟩ => number rfl h, fun h => ⟨_, _, decodeI32_load h⟩⟩ (opMask_match_iff w 0).symm,
      .trans ⟨fun ⟨_, _, h⟩ => number rfl h, fun h => ⟨_, _, decodeI32_store h⟩⟩ (opMask_match_iff w 1).symm,
      .trans ⟨fun ⟨_, _, h⟩ => number rfl h, fun h => ⟨_, _, decodeI32_add h⟩⟩ (opMask_match_iff w 2).symm,
      .trans ⟨fun ⟨_, _, h⟩ => number rfl h, fun h => ⟨_, _, decodeI32_sub h⟩⟩ (opMask_match_iff w 3).symm,
      .trans ⟨number rfl, decodeI32_nop⟩ (opMask_match_iff w 4).symm,
      .trans ⟨fun ⟨_, h⟩ => le_opField_of_decodeI32 h, fun h => ⟨_, decodeI32_unknown h⟩⟩ hle⟩
  · exact (decodeCreq_eq_read_iff (W := 32) q).trans (cmdMask_match_iff q 0).symm
  · exact (decodeCreq_eq_write_iff (W := 32) q).trans (cmdMask_match_iff q 1).symm

end Sys2Proof.Encoding
end

section
/-! PROOFS. The responses of 30_encoding.md: which answers a command can give, the Word a cache read answers, and
the fields of IRSP, CRSP and MRSP. -/

namespace Sys2Proof.Encoding

open Sys2Proof.Machine

/-! ### What a command can answer (R90, R102, R105) -/

/-- The answers of an instruction: it completed, a `CACHE.READ` returned a Word, or an operand fell outside its
bound, the offending value being one the `info` lines can carry. -/
inductive Answers (i : Instr) : Reply → Prop where
  | completed : Answers i (.ok none)
  | word (addr : Addr) (v : Word) (hi : i = .cacheRead addr) : Answers i (.ok (some v))
  | refused (k : RangeKind) (n : Nat) (hn : n < 2 ^ 24) : Answers i (.err (.outOfRange k n))

/-- A register id out of range is refused as it stands in its field. -/
theorem Answers.refusedReg (i : Instr) (a : Nibble) : Answers i (.err (.outOfRange .reg a.toNat)) :=
  .refused _ _ (Nat.lt_of_lt_of_le a.isLt (by decide))

/-- The answer of a command that ends with a cache write. -/
theorem answers_writeReply (i : Instr) (addr : Addr) (v : Word) (s : State) :
    Answers i (writeReply (cacheWrite addr v s).1) := by
  rcases cacheWrite_cases addr v s with ⟨-, e⟩ | ⟨-, e⟩ <;> rw [e]
  · exact .completed
  · exact .refused _ _ addr.isLt

theorem answers_cacheRead (addr : Addr) (s : State) :
    Answers (.cacheRead addr) (readReply (cacheRead addr s).1) := by
  rcases cacheRead_cases addr s with ⟨h, t, -, -, -, -, e⟩ | ⟨-, -, e⟩ | ⟨-, -, e⟩ <;> rw [e]
  · exact .word addr _ rfl
  · exact .word addr _ rfl
  · exact .refused _ _ addr.isLt

/-- The only error of a cache read is the store's refusal of the address (R104). -/
theorem cacheRead_err {addr : Addr} {s : State} {e : MachineError} (h : (cacheRead addr s).1 = .err e) :
    e = .outOfRange .addr addr.toNat := by
  rcases cacheRead_cases addr s with ⟨_, t, -, -, -, -, hc⟩ | ⟨-, -, hc⟩ | ⟨-, -, hc⟩ <;> rw [hc] at h <;> cases h
  rfl

/-- Every instruction gives one of the three kinds of answer. -/
theorem exec_answers (i : Instr) (s : State) : ∃ t r, exec i s = .next t ∧ t.reply = some r ∧ Answers i r := by
  cases i with
  | cacheRead addr => exact ⟨_, _, exec_cacheRead addr s, rfl, answers_cacheRead addr s⟩
  | cacheWrite addr v => exact ⟨_, _, exec_cacheWrite addr v s, rfl, answers_writeReply _ _ _ s⟩
  | load a b =>
    cases hr : (cacheRead b s).1 with
    | err e =>
      obtain rfl := cacheRead_err hr
      exact ⟨_, _, exec_load_err hr, rfl, .refused _ _ b.isLt⟩
    | ok v =>
      rcases Nat.lt_or_ge a.toNat 8 with ha | ha
      · exact ⟨_, _, exec_load_ok hr ha, rfl, .completed⟩
      · exact ⟨_, _, exec_load_reg hr ha, rfl, .refusedReg _ a⟩
  | store a b =>
    rcases Nat.lt_or_ge a.toNat 8 with ha | ha
    · exact ⟨_, _, exec_store_lt ha, rfl, answers_writeReply _ _ _ s⟩
    · exact ⟨_, _, exec_store_ge ha, rfl, .refusedReg _ a⟩
  | add a b =>
    by_cases h : 8 ≤ a.toNat ∨ 8 ≤ b.toNat
    · exact ⟨_, _, exec_add_ge h, rfl, .refused _ _ (by split_ifs <;> omega)⟩
    · exact ⟨_, _, exec_add_lt (by omega) (by omega), rfl, .completed⟩
  | sub a b =>
    by_cases h : 8 ≤ a.toNat ∨ 8 ≤ b.toNat
    · exact ⟨_, _, exec_sub_ge h, rfl, .refused _ _ (by split_ifs <;> omega)⟩
    · exact ⟨_, _, exec_sub_lt (by omega) (by omega), rfl, .completed⟩
  | nop => exact ⟨_, _, exec_nop s, rfl, .completed⟩

/-! ### The Word a cache read answers (R102, R103) -/

/-- On a hit the entry with the address is the hit slot's. -/
theorem visibleWord_of_hit {s : State} (hs : s.Inv) {j : Nat} {t : Slot} (hj : s.cache.slots[j]? = some t)
    (hv : t.valid = true) : s.visibleWord t.tag = t.data := by
  have hmem : t.entry ∈ s.entries := hs.tracks.mem_abs.2 ⟨j, t, hj, hv, rfl⟩
  unfold State.visibleWord
  cases hf : s.entries.find? fun e => e.addr == t.tag with
  | none => simpa [Slot.entry] using List.find?_eq_none.1 hf _ hmem
  | some e =>
    obtain ⟨i, u, hi, hu, rfl⟩ := hs.tracks.mem_abs.1 (List.mem_of_find?_eq_some hf)
    have hfound := List.find?_some hf
    obtain rfl := hs.tracks.tag_inj i j u t hi hj hu hv (beq_iff_eq.1 hfound)
    obtain rfl := Option.some.inj (hi.symm.trans hj)
    rfl

/-- On a miss the Word is the store's. -/
theorem visibleWord_of_miss {s : State} (hs : s.Inv) {addr : Addr} (hl : s.cache.lookup addr = none) :
    s.visibleWord addr = s.mem.read addr.toNat := by
  have hf : (s.entries.find? fun e => e.addr == addr) = none := by
    refine List.find?_eq_none.2 fun e he => ?_
    obtain ⟨i, t, hi, hv, rfl⟩ := hs.tracks.mem_abs.1 he
    simpa [Slot.entry] using Cache.lookup_none hl i t hi hv
  rw [State.visibleWord, hf]

theorem cacheRead_fst {s : State} (hs : s.Inv) (addr : Addr) :
    (cacheRead addr s).1 = if addr.toNat < s.params.storeSize then .ok (s.visibleWord addr)
      else .err (.outOfRange .addr addr.toNat) := by
  rcases cacheRead_cases addr s with ⟨h, t, -, hi, hv, rfl, e⟩ | ⟨hl, ha, e⟩ | ⟨-, ha, e⟩ <;> rw [e]
  · rw [if_pos (hs.tag_lt hi hv), visibleWord_of_hit hs hi hv]
  · rw [if_pos ha, visibleWord_of_miss hs hl]
  · rw [if_neg (Nat.not_lt.2 ha)]

theorem cacheWrite_fst (addr : Addr) (v : Word) (s : State) :
    (cacheWrite addr v s).1 = if addr.toNat < s.params.storeSize then .ok ()
      else .err (.outOfRange .addr addr.toNat) := by
  rcases cacheWrite_cases addr v s with ⟨ha, e⟩ | ⟨ha, e⟩ <;> rw [e]
  · rw [if_pos ha]
  · rw [if_neg (Nat.not_lt.2 ha)]

theorem visibleWord_isWord {s : State} (hs : s.Inv) {addr : Addr} (ha : addr.toNat < s.params.storeSize) :
    s.params.isWord (s.visibleWord addr) :=
  hs.cacheRead_isWord ((cacheRead_fst hs addr).trans (if_pos ha))

/-! ### The number on the response lines (R83) -/

theorem crsp_toNat (W : Nat) (r : Reply) : (r.crsp W).toNat = r.errCode.toNat * 2 ^ W + r.rdata % 2 ^ W := by
  rw [Reply.crsp, toNat_append_eq, BitVec.toNat_ofNat]

theorem crsp_toNat_word {W : Nat} {v : Word} (hv : v < 2 ^ W) : (Reply.crsp W (.ok (some v))).toNat = v := by
  simp [crsp_toNat, Reply.errCode, Reply.rdata, Nat.mod_eq_of_lt hv]

theorem crsp_toNat_done (W : Nat) : (Reply.crsp W (.ok none)).toNat = 0 := by
  simp [crsp_toNat, Reply.errCode, Reply.rdata]

theorem crsp_toNat_outOfRange (W : Nat) (k : RangeKind) (n : Nat) :
    (Reply.crsp W (.err (.outOfRange k n))).toNat = 2 ^ W := by
  simp [crsp_toNat, Reply.errCode, Reply.rdata]

/-! ### The statements -/

/-- Settles O38, by the three kinds of answer. -/
theorem instructionResponseIsExact : Obligations.InstructionResponseIsExact := by
  intro s t i r _ hexec hreply
  have hunknown (tag : Nibble) : (Reply.irsp (.err (.unknownOpcode tag))).info.toNat = tag.toNat :=
    BitVec.toNat_setWidth_of_le (by decide)
  obtain ⟨t', r', hexec', hreply', hans⟩ := exec_answers i s
  cases hexec'.symm.trans hexec
  cases hreply'.symm.trans hreply
  cases hans with
  | completed =>
    exact ⟨by decide, fun v _ => rfl, fun k n h => (nomatch h), fun tag => ⟨rfl, rfl, hunknown tag⟩,
      .inr ⟨.unknownOpcode 0, .inr rfl⟩⟩
  | word addr v hi =>
    exact ⟨by simp [Reply.irsp], fun v _ => rfl, fun k n h => (nomatch h), fun tag => ⟨rfl, rfl, hunknown tag⟩,
      .inl ⟨addr, hi⟩⟩
  | refused k n hn =>
    refine ⟨by simp [Reply.irsp], fun v h => (nomatch h), fun k' n' h => ?_,
      fun tag => ⟨rfl, rfl, hunknown tag⟩, .inr ⟨_, .inl rfl⟩⟩
    cases h
    exact ⟨rfl, by cases k <;> rfl, Nat.mod_eq_of_lt hn⟩

/-- Settles O39: what each cache command answers, as the number on the response lines. -/
theorem cacheResponseLayout : Obligations.CacheResponseLayout := by
  intro s addr hs
  refine ⟨⟨_, _, exec_cacheRead addr s, rfl, ?_⟩, fun v => ⟨_, _, exec_cacheWrite addr v s, rfl, ?_⟩,
    fun v hv => ⟨crsp_toNat_word hv, crsp_toNat_done _⟩, fun op => crsp_toNat_outOfRange _ _ _⟩
  · rw [cacheRead_fst hs]
    split_ifs with ha
    · exact crsp_toNat_word (visibleWord_isWord hs ha)
    · exact crsp_toNat_outOfRange _ _ _
  · rw [cacheWrite_fst]
    split_ifs
    · exact crsp_toNat_done _
    · exact crsp_toNat_outOfRange _ _ _

end Sys2Proof.Encoding
end

section
/-! PROOFS. What one instruction can do to the machine, said once, and what every list of commands therefore keeps:
the invariant, coherence, and the Words at addresses no command writes. -/

namespace Sys2Proof.CacheCommands

open Sys2Proof.Machine

/-! ### What one instruction can do -/

theorem cacheRead_regs (addr : Addr) (s : State) : (cacheRead addr s).2.regs = s.regs := by
  obtain ⟨-, hregs, -⟩ := cacheRead_frame addr s
  exact hregs

/-- A read never writes the store (R53). -/
theorem cacheRead_mem (addr : Addr) (s : State) : (cacheRead addr s).2.mem = s.mem := by
  obtain ⟨-, -, hmem, -⟩ := cacheRead_frame addr s
  exact hmem

/-- What an instruction leaves before it answers: the state as it was, one cache read or one cache write of the
address it stores to, and perhaps one register written after that. A Word it writes is a Word of the session. -/
inductive Effect (i : Instr) (s : State) : State → Prop where
  | unchanged : Effect i s s
  | read (addr : Addr) : Effect i s (cacheRead addr s).2
  | write {addr : Addr} {v : Word} (hi : storesTo i = some addr) (hv : s.Inv → s.params.isWord v) :
      Effect i s (cacheWrite addr v s).2
  | setReg {t : State} {id : Nat} {v : Word} (ht : Effect i s t) (hid : id < 8) (hv : s.Inv → s.params.isWord v) :
      Effect i s (t.setRegs (t.regs.set id v))

/-- Every instruction answers, and its effect is of one of those kinds (R156). -/
theorem exec_effect (i : Instr) (s : State) : ∃ t q, exec i s = .next (t.setReply q) ∧ Effect i s t := by
  cases i with
  | cacheRead addr => exact ⟨_, _, exec_cacheRead addr s, .read addr⟩
  | cacheWrite addr v => exact ⟨_, _, exec_cacheWrite addr v s, .write rfl fun _ => Params.isWord_toWord _ v⟩
  | load a b =>
    cases hr : (cacheRead b s).1 with
    | err e => exact ⟨_, _, exec_load_err hr, .read b⟩
    | ok v =>
      rcases Nat.lt_or_ge a.toNat 8 with ha | ha
      · have hset : Effect (.load a b) s _ := .setReg (.read b) ha fun hs => hs.cacheRead_isWord hr
        rw [cacheRead_regs] at hset
        exact ⟨_, _, exec_load_ok hr ha, hset⟩
      · exact ⟨_, _, exec_load_reg hr ha, .read b⟩
  | store a b =>
    rcases Nat.lt_or_ge a.toNat 8 with ha | ha
    · exact ⟨_, _, exec_store_lt ha, .write rfl fun hs => hs.reg_isWord _ ha⟩
    · exact ⟨_, _, exec_store_ge ha, .unchanged⟩
  | add a b =>
    by_cases h : 8 ≤ a.toNat ∨ 8 ≤ b.toNat
    · exact ⟨_, _, exec_add_ge h, .unchanged⟩
    · exact ⟨_, _, exec_add_lt (by omega) (by omega), .setReg .unchanged _ fun _ => wordAdd_lt _ _ _⟩
  | sub a b =>
    by_cases h : 8 ≤ a.toNat ∨ 8 ≤ b.toNat
    · exact ⟨_, _, exec_sub_ge h, .unchanged⟩
    · exact ⟨_, _, exec_sub_lt (by omega) (by omega), .setReg .unchanged _ fun _ => wordSub_lt _ _ _⟩
  | nop => exact ⟨_, _, exec_nop s, .unchanged⟩

/-- The next state of an instruction is its effect with an answer put on it. -/
theorem effect_of_exec {i : Instr} {s u : State} (h : exec i s = .next u) :
    ∃ t q, u = t.setReply q ∧ Effect i s t := by
  obtain ⟨t, q, ht, he⟩ := exec_effect i s
  rw [h] at ht
  exact ⟨t, q, Host.Outcome.next.inj ht, he⟩

/-! ### What an effect keeps -/

section Effects
variable {i : Instr} {s t : State}

theorem Effect.params_eq (h : Effect i s t) : t.params = s.params := by
  induction h with
  | unchanged => rfl
  | read addr => exact (cacheRead_frame addr s).1
  | write _ _ => exact (cacheWrite_frame _ _ s).1
  | setReg _ _ _ ih => exact ih

theorem Effect.inv (h : Effect i s t) (hs : s.Inv) : t.Inv := by
  induction h with
  | unchanged => exact hs
  | read addr => exact hs.cacheRead addr
  | write _ hv => exact hs.cacheWrite _ (hv hs)
  | setReg ht hid hv ih => exact ih.setReg hid (ht.params_eq ▸ hv hs)

theorem mem_of_mem_touchEntry {es : List Entry} {j : Nat} {e : Entry} (he : e ∈ touchEntry es j) : e ∈ es := by
  unfold touchEntry at he
  split at he
  next d hd =>
    rcases List.mem_append.1 he with h | h
    · exact List.mem_of_mem_eraseIdx h
    · exact List.mem_singleton.1 h ▸ List.mem_of_getElem? hd
  next => exact he

theorem mem_insertEntry {n : Nat} {es : List Entry} {addr : Addr} {v : Word} {e : Entry}
    (he : e ∈ insertEntry n es addr v) : e ∈ es ∨ e = { addr := addr, word := v } := by
  rcases List.mem_append.1 he with h | h
  · split_ifs at h
    · exact .inl (List.mem_of_mem_tail h)
    · exact .inl h
  · exact .inr (List.mem_singleton.1 h)

/-- A read fills the cache from the store only, so it keeps coherence (R118). -/
theorem coherent_cacheRead (hs : s.Inv) (hc : s.Coherent) (addr : Addr) : (cacheRead addr s).2.Coherent := by
  intro e he
  rw [cacheRead_mem]
  rcases cacheRead_cases addr s with ⟨h, t, -, hi, hv, -, hr⟩ | ⟨hl, -, hr⟩ | ⟨-, -, hr⟩ <;> rw [hr] at he
  · rw [State.setCache_entries, hs.tracks.abs_rankTouch hi hv] at he
    exact hc e (mem_of_mem_touchEntry he)
  · rw [State.setCache_entries, hs.tracks.abs_insert hs.capacity_pos hl] at he
    rcases mem_insertEntry he with h | rfl
    · exact hc e h
    · rfl
  · exact hc e he

/-- A write puts its Word in store and cache alike, so it keeps coherence (R118). -/
theorem coherent_cacheWrite (hs : s.Inv) (hc : s.Coherent) (addr : Addr) (v : Word) :
    (cacheWrite addr v s).2.Coherent := by
  intro e he
  rcases cacheWrite_cases addr v s with ⟨-, hw⟩ | ⟨-, hw⟩ <;> rw [hw] at he ⊢
  · rw [State.setCache_entries] at he
    simp only [State.setCache_mem, State.record_mem, State.setMem_mem, Memory.read_write]
    rcases hs.tracks.mem_update hs.capacity_pos he with rfl | ⟨hmem, hne⟩
    · exact if_pos rfl
    · rw [if_neg fun h => hne (BitVec.eq_of_toNat_eq h)]
      exact hc e hmem
  · exact hc e he

theorem Effect.coherent (h : Effect i s t) (hs : s.Inv) (hc : s.Coherent) : t.Coherent := by
  induction h with
  | unchanged => exact hc
  | read addr => exact coherent_cacheRead hs hc addr
  | write _ _ => exact coherent_cacheWrite hs hc _ _
  | setReg _ _ _ ih => exact ih

/-- A refused or successful write leaves every other address of the store as it was (R53). -/
theorem cacheWrite_read_ne {addr x : Addr} (v : Word) (s : State) (hx : addr ≠ x) :
    (cacheWrite addr v s).2.mem.read x.toNat = s.mem.read x.toNat := by
  rcases cacheWrite_cases addr v s with ⟨-, hw⟩ | ⟨-, hw⟩ <;> rw [hw]
  · exact (Memory.read_write ..).trans (if_neg fun h => hx (BitVec.eq_of_toNat_eq h.symm))
  · rfl

theorem Effect.mem_read {x : Addr} (h : Effect i s t) (hx : storesTo i ≠ some x) :
    t.mem.read x.toNat = s.mem.read x.toNat := by
  induction h with
  | unchanged => rfl
  | read addr => rw [cacheRead_mem]
  | write hi _ => exact cacheWrite_read_ne _ s fun h => hx (h ▸ hi)
  | setReg _ _ _ ih => exact ih

/-! ### What an instruction keeps -/

theorem exec_params (h : exec i s = .next t) : t.params = s.params := by
  obtain ⟨u, q, rfl, he⟩ := effect_of_exec h
  exact he.params_eq

theorem exec_inv (h : exec i s = .next t) (hs : s.Inv) : t.Inv := by
  obtain ⟨u, q, rfl, he⟩ := effect_of_exec h
  exact (State.setReply_inv u q).2 (he.inv hs)

theorem exec_coherent (h : exec i s = .next t) (hs : s.Inv) (hc : s.Coherent) : t.Coherent := by
  obtain ⟨u, q, rfl, he⟩ := effect_of_exec h
  exact he.coherent hs hc

theorem exec_mem_read {x : Addr} (h : exec i s = .next t) (hx : storesTo i ≠ some x) :
    t.mem.read x.toNat = s.mem.read x.toNat := by
  obtain ⟨u, q, rfl, he⟩ := effect_of_exec h
  exact he.mem_read hx

end Effects

/-! ### What a list of commands keeps -/

theorem runInstrs_cons {i : Instr} {is : List Instr} {s t : State} (h : exec i s = .next t) :
    runInstrs (i :: is) s = runInstrs is t := by
  simp only [runInstrs, h]

/-- A list of commands runs to its end (R178, R215). -/
theorem runInstrs_next (is : List Instr) (s : State) : ∃ t, runInstrs is s = .next t := by
  induction is generalizing s with
  | nil => exact ⟨s, rfl⟩
  | cons i is ih =>
    obtain ⟨t, -, ht, -⟩ := exec_next i s
    rw [runInstrs_cons ht]
    exact ih t

section Runs
variable {is : List Instr} {s t : State}

/-- What every command of a list keeps, the list keeps. -/
theorem runInstrs_keeps {P : State → Prop} (hP : ∀ i ∈ is, ∀ s t, exec i s = .next t → P s → P t)
    (h : runInstrs is s = .next t) (hs : P s) : P t := by
  induction is generalizing s with
  | nil => exact Host.Outcome.next.inj h ▸ hs
  | cons i is ih =>
    obtain ⟨u, -, hu, -⟩ := exec_next i s
    rw [runInstrs_cons hu] at h
    exact ih (fun j hj => hP j (List.mem_cons_of_mem _ hj)) h (hP i List.mem_cons_self s u hu hs)

theorem runInstrs_params (h : runInstrs is s = .next t) : t.params = s.params :=
  runInstrs_keeps (P := fun u => u.params = s.params) (fun _ _ _ _ h hs => (exec_params h).trans hs) h rfl

theorem runInstrs_inv (h : runInstrs is s = .next t) (hs : s.Inv) : t.Inv :=
  runInstrs_keeps (fun _ _ _ _ h hs => exec_inv h hs) h hs

theorem runInstrs_coherent (h : runInstrs is s = .next t) (hs : s.Inv) (hc : s.Coherent) : t.Coherent :=
  (runInstrs_keeps (P := fun u => u.Inv ∧ u.Coherent)
    (fun _ _ _ _ h hs => ⟨exec_inv h hs.1, exec_coherent h hs.1 hs.2⟩) h ⟨hs, hc⟩).2

/-- The store's Word at an address that no command of the list writes stands through the list. -/
theorem runInstrs_mem_read {x : Addr} (h : runInstrs is s = .next t) (hx : ∀ i ∈ is, storesTo i ≠ some x) :
    t.mem.read x.toNat = s.mem.read x.toNat :=
  runInstrs_keeps (P := fun u => u.mem.read x.toNat = s.mem.read x.toNat)
    (fun i hi _ _ h hs => (exec_mem_read h (hx i hi)).trans hs) h rfl

end Runs

end Sys2Proof.CacheCommands
end

section
/-! PROOFS. The two cache commands (40_cache_commands.md): what a read answers, the entry a write leaves, and the
order of the cached addresses after an access. -/

namespace Sys2Proof.CacheCommands

open Sys2Proof.Machine

/-! ### What a read answers -/

/-- Under coherence the Word a read answers is the store's, on a hit too (R118). -/
theorem visibleWord_of_coherent {s : State} (hc : s.Coherent) (x : Addr) : s.visibleWord x = s.mem.read x.toNat := by
  unfold State.visibleWord
  cases hf : s.entries.find? fun e => e.addr == x with
  | none => rfl
  | some e =>
    obtain rfl : e.addr = x := by simpa using List.find?_some hf
    exact (hc e (List.mem_of_find?_eq_some hf)).symm

/-- A read of a valid address answers the visible Word. -/
theorem exec_cacheRead_reply {s : State} {x : Addr} (hs : s.Inv) (hx : x.toNat < s.params.storeSize) :
    ∃ t, exec (.cacheRead x) s = .next t ∧ t.reply = some (.ok (some (s.visibleWord x))) := by
  refine ⟨_, exec_cacheRead x s, ?_⟩
  rw [State.setReply_reply, Encoding.cacheRead_fst hs, if_pos hx, readReply]

theorem lookupEntry_of_hit {s : State} {addr : Addr} {h : Nat} {t : Slot} (hs : s.Inv)
    (hl : s.cache.lookup addr = some h) (hi : s.cache.slots[h]? = some t) :
    lookupEntry s.entries addr = some t.rank := by
  rw [State.entries, hs.tracks.lookupEntry_abs, hl, Option.bind_some, hi, Option.map_some]

theorem lookupEntry_of_miss {s : State} {addr : Addr} (hs : s.Inv) (hl : s.cache.lookup addr = none) :
    lookupEntry s.entries addr = none := by
  rw [State.entries, hs.tracks.lookupEntry_abs, hl, Option.bind_none]

/-- A read of a cached entry's address hits it: no store access, and the entry's Word (R102). -/
theorem cacheRead_of_mem {s : State} {e : Entry} (hs : s.Inv) (he : e ∈ s.entries) :
    ∃ h, cacheRead e.addr s = (.ok e.word, s.setCache (s.cache.rankTouch h)) := by
  obtain ⟨i, t, hi, hv, rfl⟩ := hs.tracks.mem_abs.1 he
  rcases cacheRead_cases t.entry.addr s with ⟨h, u, -, hu, huv, htag, hr⟩ | ⟨hl, -⟩ | ⟨hl, -⟩
  · obtain rfl := hs.tracks.tag_inj h i u t hu hi huv hv htag
    obtain rfl := Option.some.inj (hu.symm.trans hi)
    exact ⟨h, hr⟩
  · exact absurd rfl (Cache.lookup_none hl i t hi hv)
  · exact absurd rfl (Cache.lookup_none hl i t hi hv)

/-! ### What a write leaves -/

theorem setEntryWord_at {es : List Entry} {i : Nat} {d : Entry} (v : Word) (hd : es[i]? = some d) :
    (setEntryWord es i v)[i]? = some { addr := d.addr, word := v } := by
  rw [setEntryWord, List.getElem?_modify_eq, hd, Option.map_eq_map, Option.map_some]

theorem abs_update_hit {c : Cache} {n i : Nat} {addr : Addr} (ht : c.Tracks n) (hpos : 0 < n) (v : Word)
    (hl : lookupEntry c.abs addr = some i) :
    (c.update n addr v).abs = touchEntry (setEntryWord c.abs i v) i := by
  rw [ht.abs_update hpos, hl]

theorem abs_update_miss {c : Cache} {n : Nat} {addr : Addr} (ht : c.Tracks n) (hpos : 0 < n) (v : Word)
    (hl : lookupEntry c.abs addr = none) : (c.update n addr v).abs = insertEntry n c.abs addr v := by
  rw [ht.abs_update hpos, hl]

/-- The entry of the written address is the newest after a write, whether it hit or missed (R105). -/
theorem update_abs_eq_append {c : Cache} {n : Nat} (ht : c.Tracks n) (hpos : 0 < n) (addr : Addr) (v : Word) :
    ∃ es, (c.update n addr v).abs = es ++ [{ addr := addr, word := v }] := by
  cases hl : lookupEntry c.abs addr with
  | none => exact ⟨_, abs_update_miss ht hpos v hl⟩
  | some i =>
    obtain ⟨d, hd, rfl⟩ := lookupEntry_some hl
    refine ⟨(setEntryWord c.abs i v).eraseIdx i, ?_⟩
    rw [abs_update_hit ht hpos v hl]
    simp only [touchEntry, setEntryWord_at v hd]

theorem mem_cacheWrite_entries {s : State} {x : Addr} (hs : s.Inv) (hx : x.toNat < s.params.storeSize) (v : Word) :
    { addr := x, word := v } ∈ (cacheWrite x v s).2.entries := by
  obtain ⟨es, hes⟩ := update_abs_eq_append hs.tracks hs.capacity_pos x v
  rcases cacheWrite_cases x v s with ⟨-, hw⟩ | ⟨hge, -⟩
  · rw [hw, State.setCache_entries, hes]
    exact List.mem_append_right _ List.mem_cons_self
  · omega

/-- The store takes the Word of a write of a valid address in every state (R105). -/
theorem cacheWrite_read_eq {s : State} {x : Addr} (hx : x.toNat < s.params.storeSize) (v : Word) :
    (cacheWrite x v s).2.mem.read x.toNat = v := by
  rcases cacheWrite_cases x v s with ⟨-, hw⟩ | ⟨hge, -⟩
  · rw [hw]
    exact (Memory.read_write ..).trans (if_pos rfl)
  · omega

/-! ### The last entries of a list -/

theorem lastN_of_length_le {α : Type} {n : Nat} {l : List α} (h : l.length ≤ n) : lastN n l = l := by
  rw [lastN, Nat.sub_eq_zero_of_le h, List.drop_zero]

/-- One entry more than fits drops the first. -/
theorem lastN_append_singleton {α : Type} {n : Nat} {l : List α} (hn : 0 < n) (h : l.length = n) (a : α) :
    lastN n (l ++ [a]) = l.tail ++ [a] := by
  have hne : l ≠ [] := List.ne_nil_of_length_pos (h ▸ hn)
  rw [lastN, List.length_append, List.length_singleton, h, Nat.add_sub_cancel_left, List.drop_one,
    List.tail_append_of_ne_nil hne]

theorem suffix_lastN {α : Type} {n : Nat} {p l : List α} (hp : p <:+ l) (hn : p.length ≤ n) : p <:+ lastN n l := by
  refine List.suffix_of_suffix_length_le hp (List.drop_suffix _ l) ?_
  have := hp.length_le
  simp only [lastN, List.length_drop]
  omega

/-! ### The order of the cached addresses after an access -/

/-- The recency order of `n` places after an access of `q`: `q` last, and the first dropped when that is one too
many (R101, R108). -/
def afterAccess (n : Nat) (l : List Addr) (q : Addr) : List Addr := lastN n (l.filter (fun p => p ≠ q) ++ [q])

theorem filter_ne_of_notMem {l : List Addr} {q : Addr} (hq : q ∉ l) : l.filter (fun p => p ≠ q) = l :=
  List.filter_eq_self.2 fun _ hp => decide_eq_true fun h => hq (h ▸ hp)

theorem cachedAddrs_nodup {s : State} (hs : s.Inv) : s.cachedAddrs.Nodup := by
  rw [State.cachedAddrs, List.nodup_iff_getElem?_ne_getElem?]
  intro i j hij hj heq
  rw [List.length_map] at hj
  have hi := Nat.lt_trans hij hj
  rw [List.getElem?_map, List.getElem?_map, List.getElem?_eq_getElem hi, List.getElem?_eq_getElem hj] at heq
  exact Nat.ne_of_lt hij (hs.tracks.abs_addr_inj (List.getElem?_eq_getElem hi) (List.getElem?_eq_getElem hj)
    (Option.some.inj heq))

theorem cachedAddrs_length_le {s : State} (hs : s.Inv) : s.cachedAddrs.length ≤ s.params.capacity := by
  rw [State.cachedAddrs, List.length_map]
  exact hs.tracks.abs_length.trans_le hs.tracks.count_le

/-- Touching an entry makes its address the last (R101). -/
theorem touchEntry_addrs {n i : Nat} {es : List Entry} {d : Entry} (hu : (es.map Entry.addr).Nodup)
    (hn : es.length ≤ n) (hd : es[i]? = some d) :
    (touchEntry es i).map Entry.addr = afterAccess n (es.map Entry.addr) d.addr := by
  obtain ⟨hi, rfl⟩ := List.getElem?_eq_some_iff.1 hd
  have hfilter : (es.map Entry.addr).filter (fun p => p ≠ es[i].addr) = (es.map Entry.addr).eraseIdx i := by
    have hget := List.Nodup.erase_getElem hu i (by simpa using hi)
    rw [List.getElem_map, hu.erase_eq_filter] at hget
    rw [← hget]
    exact List.filter_congr fun p _ => by simp [bne, BEq.beq]
  have hlen : ((es.map Entry.addr).eraseIdx i ++ [es[i].addr]).length ≤ n := by
    simp only [List.length_append, List.length_eraseIdx, List.length_map, if_pos hi, List.length_singleton]
    omega
  rw [afterAccess, hfilter, lastN_of_length_le hlen]
  simp only [touchEntry, hd, List.map_append, List.eraseIdx_map, List.map_singleton]

/-- Inserting an entry makes its address the last, the first leaving a full cache (R108). -/
theorem insertEntry_addrs {n : Nat} {es : List Entry} {q : Addr} (v : Word) (hpos : 0 < n) (hn : es.length ≤ n)
    (hq : lookupEntry es q = none) :
    (insertEntry n es q v).map Entry.addr = afterAccess n (es.map Entry.addr) q := by
  have hnew : q ∉ es.map Entry.addr := fun h => by
    obtain ⟨e, he, rfl⟩ := List.mem_map.1 h
    exact lookupEntry_none.1 hq e he rfl
  rw [afterAccess, filter_ne_of_notMem hnew, insertEntry]
  split_ifs with hfull
  · rw [lastN_append_singleton hpos (by simpa using hfull), List.map_append, List.map_tail, List.map_singleton]
  · rw [lastN_of_length_le (by simp only [List.length_append, List.length_map, List.length_singleton]; omega),
      List.map_append, List.map_singleton]

/-- Changing an entry's Word moves no address. -/
theorem setEntryWord_addrs (es : List Entry) (i : Nat) (v : Word) :
    (setEntryWord es i v).map Entry.addr = es.map Entry.addr := by
  refine List.ext_getElem? fun j => ?_
  simp only [setEntryWord, List.getElem?_map, List.getElem?_modify]
  cases es[j]? with
  | none => rfl
  | some e => by_cases h : i = j <;> simp [h]

section Access
variable {s : State} {q : Addr}

theorem cacheRead_addrs (hs : s.Inv) (hq : q.toNat < s.params.storeSize) :
    (cacheRead q s).2.cachedAddrs = afterAccess s.params.capacity s.cachedAddrs q := by
  have hlen := cachedAddrs_length_le hs
  rw [State.cachedAddrs, List.length_map] at hlen
  rcases cacheRead_cases q s with ⟨h, t, -, hi, hv, rfl, hr⟩ | ⟨hl, -, hr⟩ | ⟨-, hge, -⟩
  · rw [hr, State.cachedAddrs, State.setCache_entries, hs.tracks.abs_rankTouch hi hv]
    exact touchEntry_addrs (cachedAddrs_nodup hs) hlen (hs.tracks.abs_at hi hv)
  · rw [hr, State.cachedAddrs, State.setCache_entries, hs.tracks.abs_insert hs.capacity_pos hl]
    exact insertEntry_addrs _ hs.capacity_pos hlen (lookupEntry_of_miss hs hl)
  · omega

theorem cacheWrite_addrs (hs : s.Inv) (hq : q.toNat < s.params.storeSize) (v : Word) :
    (cacheWrite q v s).2.cachedAddrs = afterAccess s.params.capacity s.cachedAddrs q := by
  have hlen := cachedAddrs_length_le hs
  rw [State.cachedAddrs, List.length_map] at hlen
  rcases cacheWrite_cases q v s with ⟨-, hw⟩ | ⟨hge, -⟩
  · rw [hw, State.cachedAddrs, State.setCache_entries]
    cases hl : lookupEntry s.cache.abs q with
    | none =>
      rw [abs_update_miss hs.tracks hs.capacity_pos v hl]
      exact insertEntry_addrs _ hs.capacity_pos hlen hl
    | some i =>
      obtain ⟨d, hd, rfl⟩ := lookupEntry_some hl
      have haddrs := setEntryWord_addrs s.entries i v
      have hkeep : (setEntryWord s.entries i v).length = s.entries.length := List.length_modify ..
      rw [abs_update_hit hs.tracks hs.capacity_pos v hl, State.cachedAddrs, ← haddrs]
      exact touchEntry_addrs (d := { addr := d.addr, word := v }) (haddrs ▸ cachedAddrs_nodup hs)
        (hkeep.trans_le hlen) (setEntryWord_at v hd)
  · omega

/-- An access of a valid address, read or write, answers and makes the address the most recently used. -/
theorem exec_access (w : Option Word) (hs : s.Inv) (hq : q.toNat < s.params.storeSize) :
    ∃ t, exec (accessInstr q w) s = .next t ∧ t.cachedAddrs = afterAccess s.params.capacity s.cachedAddrs q := by
  cases w with
  | none => exact ⟨_, exec_cacheRead q s, cacheRead_addrs hs hq⟩
  | some v => exact ⟨_, exec_cacheWrite q v s, cacheWrite_addrs hs hq _⟩

/-- In a full cache an access of another address evicts the first and no other (R109). -/
theorem exec_access_full (w : Option Word) (hs : s.Inv) (hfull : s.cachedAddrs.length = s.params.capacity)
    (hq : q.toNat < s.params.storeSize) (hnew : q ∉ s.cachedAddrs) :
    ∃ t, exec (accessInstr q w) s = .next t ∧ t.cachedAddrs = s.cachedAddrs.tail ++ [q] := by
  obtain ⟨t, ht, horder⟩ := exec_access w hs hq
  rw [afterAccess, filter_ne_of_notMem hnew, lastN_append_singleton hs.capacity_pos hfull] at horder
  exact ⟨t, ht, horder⟩

/-- An access of the least recently used address moves it to the other end and evicts nothing (R101). -/
theorem exec_access_first {rest : List Addr} (w : Option Word) (hs : s.Inv) (hfirst : s.cachedAddrs = q :: rest)
    (hq : q.toNat < s.params.storeSize) :
    ∃ t, exec (accessInstr q w) s = .next t ∧ t.cachedAddrs = rest ++ [q] := by
  obtain ⟨t, ht, horder⟩ := exec_access w hs hq
  have hu := List.nodup_cons.1 (hfirst ▸ cachedAddrs_nodup hs)
  have hlen : (rest ++ [q]).length ≤ s.params.capacity := by
    simpa [hfirst] using cachedAddrs_length_le hs
  rw [afterAccess, hfirst, List.filter_cons_of_neg (by simp), filter_ne_of_notMem hu.1,
    lastN_of_length_le hlen] at horder
  exact ⟨t, ht, horder⟩

end Access

/-- An access keeps the order of the newest addresses, if it is of another one and they do not fill the cache. -/
theorem suffix_afterAccess {n : Nat} {p l : List Addr} {q : Addr} (hp : p <:+ l) (hq : q ∉ p) (hn : p.length < n) :
    p ++ [q] <:+ afterAccess n l q := by
  have hfilter := hp.filter fun a => decide (a ≠ q)
  rw [filter_ne_of_notMem hq] at hfilter
  exact suffix_lastN (List.suffix_append_inj_of_length_eq rfl |>.2 ⟨hfilter, rfl⟩) (by simpa using hn)

/-- Accesses of different addresses, no more than fit beside the newest ones `p`, are the newest after `p`. -/
theorem runInstrs_accesses {as : List (Addr × Option Word)} {s : State} {p : List Addr} (hs : s.Inv)
    (hp : p <:+ s.cachedAddrs) (hu : (p ++ as.map Prod.fst).Nodup)
    (hlen : (p ++ as.map Prod.fst).length ≤ s.params.capacity) (has : ∀ a ∈ as, a.1.toNat < s.params.storeSize) :
    ∃ t, runInstrs (accesses as) s = .next t ∧ p ++ as.map Prod.fst <:+ t.cachedAddrs := by
  induction as generalizing s p with
  | nil => exact ⟨s, rfl, by simpa using hp⟩
  | cons a as ih =>
    obtain ⟨q, w⟩ := a
    obtain ⟨t, ht, horder⟩ := exec_access w hs (has (q, w) List.mem_cons_self)
    have hparams := exec_params ht
    have hsplit : p ++ ((q, w) :: as).map Prod.fst = p ++ [q] ++ as.map Prod.fst := by simp
    rw [hsplit] at hu hlen ⊢
    have hq : q ∉ p := fun h => (List.nodup_append.1 (List.nodup_append.1 hu).1).2.2 q h q List.mem_cons_self rfl
    have hfit : p.length < s.params.capacity := by
      simp only [List.length_append, List.length_singleton] at hlen
      omega
    obtain ⟨u, hrun, hsuffix⟩ := ih (exec_inv ht hs) (horder ▸ suffix_afterAccess hp hq hfit) hu
      (hparams ▸ hlen) (fun b hb => hparams ▸ has b (List.mem_cons_of_mem _ hb))
    exact ⟨u, (runInstrs_cons ht).trans hrun, hsuffix⟩

/-! ### The statements -/

/-- Settles O20: coherence makes both reads answer the store's Word, which the commands between keep. -/
theorem repeatedReadsAgree : Obligations.RepeatedReadsAgree := by
  intro s x is hs hc hx his
  obtain ⟨t, ht, hreply⟩ := exec_cacheRead_reply hs hx
  obtain ⟨u, hu⟩ := runInstrs_next is t
  have hinv := exec_inv ht hs
  have hsize : x.toNat < u.params.storeSize := by rwa [runInstrs_params hu, exec_params ht]
  obtain ⟨w, hw, hreply'⟩ := exec_cacheRead_reply (runInstrs_inv hu hinv) hsize
  have hcoh := runInstrs_coherent hu hinv (exec_coherent ht hs hc)
  have hsame : u.visibleWord x = s.visibleWord x := calc
    u.visibleWord x = u.mem.read x.toNat := visibleWord_of_coherent hcoh x
    _ = t.mem.read x.toNat := runInstrs_mem_read hu his
    _ = s.mem.read x.toNat := exec_mem_read ht (by simp [storesTo])
    _ = s.visibleWord x := (visibleWord_of_coherent hc x).symm
  exact ⟨_, t, u, w, ht, hreply, hu, hw, hsame ▸ hreply'⟩

/-- Settles O22: the newest `C` addresses are all there are, so the accesses leave exactly theirs; the next access
finds the cache full, whether the first address was accessed again or not. -/
theorem leastRecentlyUsedIsEvicted : Obligations.LeastRecentlyUsedIsEvicted := by
  intro s as hs hlen hu has
  have hcount : (as.map Prod.fst).length = s.params.capacity := List.length_map _ |>.trans hlen
  obtain ⟨t, ht, hsuffix⟩ := runInstrs_accesses hs List.nil_suffix hu hcount.le has
  have hinv := runInstrs_inv ht hs
  have hpar := runInstrs_params ht
  rw [← hpar] at hcount
  have horder : t.cachedAddrs = as.map Prod.fst :=
    (hsuffix.eq_of_length_le (hcount ▸ cachedAddrs_length_le hinv)).symm
  refine ⟨t, ht, horder, fun q w hq hnew => ?_, fun p rest w hfirst => ?_⟩
  · rw [← horder] at hcount hnew ⊢
    exact exec_access_full w hinv hcount (hpar ▸ hq) hnew
  · have hp : p.toNat < t.params.storeSize := by
      obtain ⟨a, ha, rfl⟩ := List.mem_map.1 (hfirst ▸ List.mem_cons_self : p ∈ as.map Prod.fst)
      exact hpar ▸ has a ha
    obtain ⟨t', ht', horder'⟩ := exec_access_first w hinv (horder.trans hfirst) hp
    have hpar' := exec_params ht'
    refine ⟨t', ht', horder', fun q w' hq hnew => ?_⟩
    rw [← horder']
    refine exec_access_full w' (exec_inv ht' hinv) ?_ (by rwa [hpar', hpar]) ?_
    · rw [horder', hpar', ← hcount, hfirst, List.length_append, List.length_singleton, List.length_cons]
    · rw [horder', List.mem_append, List.mem_singleton, or_comm, ← List.mem_cons, ← hfirst]
      exact hnew

/-- Settles O16: by the three things a cache read can do. -/
theorem cacheReadHitMissOrRefused : Obligations.CacheReadHitMissOrRefused := by
  intro s addr hs
  have hdecode : ∀ (W : Nat) (v : BitVec W), decodeCreq (encodeCreq 0 addr v) = .cacheRead addr := fun W v => by
    rw [Encoding.decodeCreq_read (Laws.EncodingFormat.cmdField_encodeCreq ..), Encoding.addrField_encodeCreq]
  rw [exec_cacheRead]
  rcases cacheRead_cases addr s with ⟨h, t, hl, hi, hv, htag, hr⟩ | ⟨hl, ha, hr⟩ | ⟨hl, ha, hr⟩ <;> rw [hr]
  · have hrank := lookupEntry_of_hit hs hl hi
    refine ⟨fun i hsome => ?_, fun hnone => ?_, fun hge => ?_, hdecode⟩
    · obtain rfl := Option.some.inj (hrank.symm.trans hsome)
      exact ⟨t.entry, _, hs.tracks.abs_at hi hv, htag, rfl, hs.tracks.abs_rankTouch hi hv⟩
    · exact nomatch hrank.symm.trans hnone
    · exact nomatch (hs.lookup_of_ge hge).symm.trans hl
  · have hmiss := lookupEntry_of_miss hs hl
    refine ⟨fun i hsome => ?_, fun _ _ => ?_, fun hge => ?_, hdecode⟩
    · exact nomatch hmiss.symm.trans hsome
    · exact ⟨_, rfl, hs.tracks.abs_insert hs.capacity_pos hl⟩
    · omega
  · have hmiss := lookupEntry_of_miss hs hl
    refine ⟨fun i hsome => ?_, fun _ hlt => ?_, fun _ => ⟨hmiss, rfl⟩, hdecode⟩
    · exact nomatch hmiss.symm.trans hsome
    · omega

/-- Settles O17: by the two things a cache write can do, the cache by the update's abstract meaning. -/
theorem cacheWriteThroughAndAllocate : Obligations.CacheWriteThroughAndAllocate := by
  intro s addr v hs hv
  have hdecode : ∀ (W : Nat) (w : BitVec W), decodeCreq (encodeCreq 1 addr w) = .cacheWrite addr w.toNat :=
    fun W w => by
      rw [Encoding.decodeCreq_write (Laws.EncodingFormat.cmdField_encodeCreq ..), Encoding.addrField_encodeCreq,
        Encoding.wdataField_encodeCreq]
  rw [exec_cacheWrite, Params.toWord_of_isWord hv]
  rcases cacheWrite_cases addr v s with ⟨ha, hw⟩ | ⟨ha, hw⟩ <;> rw [hw]
  · refine ⟨fun _ => ⟨s.cache.update s.params.capacity addr v, _, rfl, fun x => Memory.read_write ..,
      fun i hi => ?_, fun hi => ?_⟩, fun hge => absurd ha (Nat.not_lt.2 hge), hdecode⟩
    · exact abs_update_hit hs.tracks hs.capacity_pos v hi
    · exact abs_update_miss hs.tracks hs.capacity_pos v hi
  · exact ⟨fun hlt => absurd hlt (Nat.not_lt.2 ha), fun _ => rfl, hdecode⟩

/-- Settles O18: the write stores the Word, and no command of the list changes it. -/
theorem writeThroughCoherence : Obligations.WriteThroughCoherence := by
  intro s x v hx hv
  have hstored := cacheWrite_read_eq hx v
  refine ⟨_, exec_cacheWrite x v s, ?_⟩
  rw [Params.toWord_of_isWord hv]
  refine ⟨hstored, fun is his => ?_⟩
  obtain ⟨u, hu⟩ := runInstrs_next is _
  exact ⟨u, hu, (runInstrs_mem_read hu his).trans hstored⟩

/-- Settles O19: the write leaves an entry of the Word, which the read hits. -/
theorem writeThenReadReturnsWord : Obligations.WriteThenReadReturnsWord := by
  intro s x v hs hx hv
  have ht := exec_cacheWrite x v s
  rw [Params.toWord_of_isWord hv] at ht
  obtain ⟨h, hr⟩ := cacheRead_of_mem (exec_inv ht hs) (mem_cacheWrite_entries hs hx v)
  refine ⟨_, _, ht, exec_cacheRead x _, ?_, ?_⟩ <;> rw [hr] <;> rfl

/-- Settles O21: the invariant at the end bounds the addresses and keeps them different. -/
theorem capacityNeverExceeded : Obligations.CapacityNeverExceeded := by
  intro s is hs
  obtain ⟨t, ht⟩ := runInstrs_next is s
  have hinv := runInstrs_inv ht hs
  exact ⟨t, ht, runInstrs_params ht ▸ cachedAddrs_length_le hinv, cachedAddrs_nodup hinv⟩

end Sys2Proof.CacheCommands
end

section
/-! PROOFS. The Execution Unit's instructions (42_execution_unit.md): each one's next state written out, with the
error it reports first, and the word that decodes to it. -/

namespace Sys2Proof.ExecutionUnit

open Sys2Proof.Machine

/-! ### The word of an instruction -/

/-- The word an instruction is encoded as decodes to it, at any width (R95). -/
theorem decodeI32_of_encode {W : Nat} {i : Instr} {w : BitVec 32} (hi : i.wellFormed W = true)
    (hw : encode W i = .i32 w) : decodeI32 w = .instr i := by
  have hdecode := Encoding.decode_encode hi
  rwa [hw, decode] at hdecode

/-- A word built with a tag that is none of the five decodes to that tag, whatever its operands (R89). -/
theorem decode_encodeI32_unknown {op : Nibble} (W : Nat) (a : Nibble) (b : Addr) (hop : 5 ≤ op.toNat) :
    decode W (.i32 (encodeI32 op a b)) = .unknown op := by
  have htag := Laws.EncodingFormat.opField_encodeI32 op a b
  rw [decode, Encoding.decodeI32_unknown (by rwa [htag]), htag]

/-! ### The cache operation of a LOAD or a STORE -/

/-- A cache read leaves the state as it was but for some cache and some trace. -/
theorem cacheRead_snd (addr : Addr) (s : State) :
    ∃ c tr, (cacheRead addr s).2 = { s with cache := c, trace := tr } := by
  rcases cacheRead_cases addr s with ⟨h, t, -, -, -, -, hr⟩ | ⟨-, -, hr⟩ | ⟨-, -, hr⟩ <;> rw [hr]
  · exact ⟨_, _, rfl⟩
  · exact ⟨_, _, rfl⟩
  · exact ⟨_, _, rfl⟩

/-- A read of an address outside the store misses and is refused by the store (R104). -/
theorem cacheRead_of_ge {s : State} {addr : Addr} (hs : s.Inv) (ha : s.params.storeSize ≤ addr.toNat) :
    cacheRead addr s = (.err (.outOfRange .addr addr.toNat), s.record (.merr .read addr)) := by
  rcases cacheRead_cases addr s with ⟨h, t, hl, -⟩ | ⟨-, hlt, -⟩ | ⟨-, -, hr⟩
  · exact nomatch (hs.lookup_of_ge ha).symm.trans hl
  · omega
  · exact hr

/-- The written entry is the newest after a write (R105). -/
theorem update_abs_getLast? {c : Cache} {n : Nat} (ht : c.Tracks n) (hpos : 0 < n) (addr : Addr) (v : Word) :
    (c.update n addr v).abs.getLast? = some { addr := addr, word := v } := by
  obtain ⟨es, hes⟩ := CacheCommands.update_abs_eq_append ht hpos addr v
  rw [hes, List.getLast?_concat]

/-- A STORE of a register in range is the `CACHE.WRITE` of its Word (R151). -/
theorem exec_cacheWrite_eq_store {s : State} {a : Nibble} (b : Addr) (hs : s.Inv) (ha : a.toNat < 8) :
    exec (.cacheWrite b s.regs[a.toNat]) s = exec (.store a b) s := by
  rw [exec_cacheWrite, exec_store_lt ha, Params.toWord_of_isWord (hs.reg_isWord _ ha)]

/-! ### The statements -/

/-- Settles O29: the cache read's answer decides between the address error and the register's write. -/
theorem loadReadsThroughCache : Obligations.LoadReadsThroughCache := by
  intro s a b hs
  refine ⟨fun hb => ?_, fun hb => ?_, decodeI32_of_encode (W := 0) rfl rfl⟩
  · have hread := (Encoding.cacheRead_fst hs b).trans (if_pos hb)
    obtain ⟨c, tr, hstate⟩ := cacheRead_snd b s
    refine ⟨c, tr, ?_, fun ha => ?_, fun ha => ?_⟩
    · rw [exec_cacheRead, hread, hstate]
      rfl
    · rw [exec_load_ok hread ha, hstate]
      rfl
    · rw [exec_load_reg hread ha, hstate]
      rfl
  · have hrefused := cacheRead_of_ge hs hb
    rw [exec_load_err (congrArg Prod.fst hrefused), hrefused]
    rfl

/-- Settles O30: the register is read first, then the write is one of the two things a cache write can do. -/
theorem storeWritesThroughCache : Obligations.StoreWritesThroughCache := by
  intro s a b hs
  refine ⟨fun ha => ?_, fun ha => exec_store_ge ha, decodeI32_of_encode (W := 0) rfl rfl⟩
  have hexec := exec_store_lt (b := b) (s := s) ha
  rcases cacheWrite_cases b s.regs[a.toNat] s with ⟨hb, hw⟩ | ⟨hb, hw⟩ <;> rw [hw] at hexec
  · refine ⟨fun _ => ⟨_, _, hexec, exec_cacheWrite_eq_store b hs ha, fun x => Memory.read_write .., ?_⟩,
      fun hge => absurd hb (Nat.not_lt.2 hge)⟩
    exact update_abs_getLast? hs.tracks hs.capacity_pos b _
  · exact ⟨fun hlt => absurd hlt (Nat.not_lt.2 hb), fun _ => hexec⟩

/-- Settles O31: the ids are in range, or `b` is not, or only `a` is not. -/
theorem addWritesSumModulo : Obligations.AddWritesSumModulo := by
  intro s a b
  refine ⟨fun ha hb => exec_add_lt ha hb, fun hb => ?_, fun hb ha => ?_, decodeI32_of_encode (W := 0) rfl rfl⟩
  · rw [exec_add_ge (.inr hb), if_pos hb]
    rfl
  · rw [exec_add_ge (.inl ha), if_neg (Nat.not_le.2 hb)]
    rfl

/-- Settles O32: the registers hold Words, so the difference modulo `2^W` is one or the other of the two. -/
theorem subWritesDifferenceModulo : Obligations.SubWritesDifferenceModulo := by
  intro s a b hs
  refine ⟨fun ha hb => ?_, fun ha => ?_, fun ha hb => ?_, decodeI32_of_encode (W := 0) rfl rfl⟩
  · rw [exec_sub_lt ha hb, wordSub_eq (hs.reg_isWord _ ha) (hs.reg_isWord _ hb)]
    rfl
  · rw [exec_sub_ge (.inl ha), if_pos ha]
    rfl
  · rw [exec_sub_ge (.inr hb), if_neg (Nat.not_le.2 ha)]
    rfl

/-- Settles O33: the tag alone makes a word a NOP. -/
theorem nopHasNoEffect : Obligations.NopHasNoEffect :=
  ⟨exec_nop, fun a b => Encoding.decodeI32_nop (Laws.EncodingFormat.opField_encodeI32 4 a b)⟩

/-- Settles O34: the step runs the word, which decodes to its tag; the `info` lines are wider than the tag. -/
theorem unknownOpcodeReportsTag : Obligations.UnknownOpcodeReportsTag := by
  intro s op a b rest hlegal hop hdriver
  refine ⟨?_, rfl, BitVec.toNat_setWidth_of_le (by decide)⟩
  rw [step_cons hlegal hdriver, runAction, runCommand_unknown _ (decode_encodeI32_unknown _ a b hop)]
  rfl

end Sys2Proof.ExecutionUnit
end

section
/-! PROOFS. Errors and what they leave (60_exceptions.md): the three ways an instruction fails, and that only one of
them has changed the cache by then. -/

namespace Sys2Proof.Exceptions

open Sys2Proof.Machine

/-! ### The ways an instruction fails -/

/-- How an instruction ends: the answer it gives and the state it leaves before answering. Of a completed one nothing
is said here; a failing one stopped at a register id it read, at an address the store refused, or, a LOAD only, at the
id it writes after its cache read (R173, R174). -/
inductive Ends (i : Instr) (s : State) : Reply → State → Prop where
  | completed (v : Option Word) (t : State) : Ends i s (.ok v) t
  | refusedReg (n : Nat) (hi : ∀ a b, i ≠ .load a b) : Ends i s (.err (.outOfRange .reg n)) s
  | refusedAddr (op : MemOp) {addr : Addr} (hi : portAddr i = some addr) (haddr : s.params.storeSize ≤ addr.toNat) :
      Ends i s (.err (.outOfRange .addr addr.toNat)) (s.record (.merr op addr))
  | readThenRefused {a : Nibble} {b : Addr} (hi : i = .load a b) (hb : b.toNat < s.params.storeSize)
      (ha : 8 ≤ a.toNat) : Ends i s (.err (.outOfRange .reg a.toNat)) (cacheRead b s).2

/-- An instruction that ends with a cache write completes, or the store refuses the address before the cache is
updated (R105). -/
theorem ends_cacheWrite {i : Instr} {addr : Addr} (hi : portAddr i = some addr) (v : Word) (s : State) :
    Ends i s (writeReply (cacheWrite addr v s).1) (cacheWrite addr v s).2 := by
  rcases cacheWrite_cases addr v s with ⟨-, hw⟩ | ⟨haddr, hw⟩ <;> rw [hw]
  · exact .completed _ _
  · exact .refusedAddr .write hi haddr

/-- Every instruction ends in one of these ways. -/
theorem exec_ends (i : Instr) {s : State} (hs : s.Inv) : ∃ t q, exec i s = .next (t.setReply q) ∧ Ends i s q t := by
  cases i with
  | cacheRead addr =>
    refine ⟨_, _, exec_cacheRead addr s, ?_⟩
    rcases Nat.lt_or_ge addr.toNat s.params.storeSize with haddr | haddr
    · rw [Encoding.cacheRead_fst hs, if_pos haddr]
      exact .completed _ _
    · rw [ExecutionUnit.cacheRead_of_ge hs haddr]
      exact .refusedAddr .read rfl haddr
  | cacheWrite addr v => exact ⟨_, _, exec_cacheWrite addr v s, ends_cacheWrite rfl _ s⟩
  | load a b =>
    rcases Nat.lt_or_ge b.toNat s.params.storeSize with hb | hb
    · have hread := (Encoding.cacheRead_fst hs b).trans (if_pos hb)
      rcases Nat.lt_or_ge a.toNat 8 with ha | ha
      · exact ⟨_, _, exec_load_ok hread ha, .completed _ _⟩
      · exact ⟨_, _, exec_load_reg hread ha, .readThenRefused rfl hb ha⟩
    · have hrefused := ExecutionUnit.cacheRead_of_ge hs hb
      refine ⟨_, _, exec_load_err (congrArg Prod.fst hrefused), ?_⟩
      rw [hrefused]
      exact .refusedAddr .read rfl hb
  | store a b =>
    rcases Nat.lt_or_ge a.toNat 8 with ha | ha
    · exact ⟨_, _, exec_store_lt ha, ends_cacheWrite rfl _ s⟩
    · exact ⟨_, _, exec_store_ge ha, .refusedReg _ nofun⟩
  | add a b =>
    by_cases h : 8 ≤ a.toNat ∨ 8 ≤ b.toNat
    · exact ⟨_, _, exec_add_ge h, .refusedReg _ nofun⟩
    · exact ⟨_, _, exec_add_lt (by omega) (by omega), .completed _ _⟩
  | sub a b =>
    by_cases h : 8 ≤ a.toNat ∨ 8 ≤ b.toNat
    · exact ⟨_, _, exec_sub_ge h, .refusedReg _ nofun⟩
    · exact ⟨_, _, exec_sub_lt (by omega) (by omega), .completed _ _⟩
  | nop => exact ⟨_, _, exec_nop s, .completed _ _⟩

/-! ### What a completed cache read leaves newest -/

/-- A cache read of a valid address makes it the most recently used (R102). -/
theorem cacheRead_getLast? {s : State} {b : Addr} (hs : s.Inv) (hb : b.toNat < s.params.storeSize) :
    (cacheRead b s).2.cachedAddrs.getLast? = some b := by
  obtain ⟨l, hl⟩ := CacheCommands.suffix_afterAccess (l := s.cachedAddrs) List.nil_suffix List.not_mem_nil
    (hs.capacity_pos : ([] : List Addr).length < _)
  rw [CacheCommands.cacheRead_addrs hs hb, ← hl, List.nil_append, List.getLast?_concat]

/-! ### The statement -/

/-- Settles O37: of the ways to fail, two leave the cache as it was and the third is the LOAD's. -/
theorem onlyFailingLoadLeavesPartialState : Obligations.OnlyFailingLoadLeavesPartialState := by
  intro s t i e hs hexec hreply
  obtain ⟨u, q, hu, hends⟩ := exec_ends i hs
  obtain rfl := Host.Outcome.next.inj (hu.symm.trans hexec)
  obtain rfl := Option.some.inj hreply
  cases hends with
  | refusedReg n hi => exact ⟨rfl, rfl, rfl, rfl, fun a b hload => absurd hload (hi a b), fun _ => rfl⟩
  | refusedAddr op hi haddr =>
    refine ⟨rfl, rfl, rfl, rfl, fun a b hload hb => ?_, fun _ => rfl⟩
    subst hload
    obtain rfl := Option.some.inj hi
    exact absurd hb (Nat.not_lt.2 haddr)
  | @readThenRefused a b hi hb ha =>
    obtain ⟨hparams, hregs, hmem, -, hdriver⟩ := cacheRead_frame b s
    refine ⟨hregs, hmem, hparams, hdriver, fun a' b' hload _ _ => ?_, fun hother => ?_⟩
    · obtain ⟨rfl, rfl⟩ := Instr.load.inj (hi.symm.trans hload)
      exact ⟨rfl, cacheRead_getLast? hs hb, _, exec_cacheRead b s, rfl, rfl⟩
    · have := hother a b hi
      omega

end Sys2Proof.Exceptions
end

section
/-! PROOFS. The host's accesses to the registers and the store (70_reset_and_hazards.md): each one's next state, inside
and outside the range it accepts. -/

namespace Sys2Proof.HostAccess

open Sys2Proof.Machine

/-! ### The next state of a host access (R209, R210, R211) -/

theorem hostReadReg_of_lt {s : State} {id : Nat} (h : id < 8) :
    hostReadReg id s = .next (s.setReply (.ok (some s.regs[id]))) := by
  rw [hostReadReg, regGet_of_lt h, hostAnswer, respond_mk]

theorem hostReadReg_of_ge {s : State} {id : Nat} (h : 8 ≤ id) :
    hostReadReg id s = .next (s.setReply (.err (.outOfRange .reg id))) := by
  rw [hostReadReg, regGet_of_ge h, hostAnswer, raise_eq, respond_mk]

theorem hostReadMem_of_lt {s : State} {a : Nat} (h : a < s.params.storeSize) :
    hostReadMem a s = .next (s.setReply (.ok (some (s.mem.read a)))) := by
  rw [hostReadMem, storeRead_of_lt h, hostAnswer, respond_mk]

theorem hostReadMem_of_ge {s : State} {a : Nat} (h : s.params.storeSize ≤ a) :
    hostReadMem a s = .next (s.setReply (.err (.outOfRange .addr a))) := by
  rw [hostReadMem, storeRead_of_ge h, hostAnswer, raise_eq, respond_mk]

theorem hostWriteMem_of_lt {s : State} {a : Nat} {v : Word} (hv : s.params.isWord v) (h : a < s.params.storeSize) :
    hostWriteMem a v s = .next ((s.setMem (s.mem.write a v)).setReply (.ok none)) := by
  rw [hostWriteMem, Params.toWord_of_isWord hv, storeWrite_of_lt v h, respond_mk]

theorem hostWriteMem_of_ge {s : State} {a : Nat} (v : Word) (h : s.params.storeSize ≤ a) :
    hostWriteMem a v s = .next (s.setReply (.err (.outOfRange .addr a))) := by
  rw [hostWriteMem, storeWrite_of_ge _ h]
  rfl

/-! ### Reading behind a write through the cache (R209) -/

/-- After a `CACHE.WRITE` of a Word the store holds it, so the host, who reads the store alone, gets it. -/
theorem hostReadMem_after_cacheWrite {s t : State} {addr : Addr} {v : Word}
    (ha : addr.toNat < s.params.storeSize) (hv : s.params.isWord v) (ht : exec (.cacheWrite addr v) s = .next t) :
    hostReadMem addr.toNat t = .next (t.setReply (.ok (some v))) := by
  have hparams : t.params = s.params := CacheCommands.exec_params ht
  have hstored : t.mem.read addr.toNat = v := by
    rw [exec_cacheWrite, Params.toWord_of_isWord hv] at ht
    obtain rfl := Host.Outcome.next.inj ht
    exact CacheCommands.cacheWrite_read_eq ha v
  rw [hostReadMem_of_lt (by rwa [hparams]), hstored]

/-! ### The statements -/

/-- Settles O7: by the register id's range. -/
theorem hostReadRegisterHasNoSideEffect : Obligations.HostReadRegisterHasNoSideEffect :=
  fun _ _ => ⟨hostReadReg_of_lt, hostReadReg_of_ge⟩

/-- Settles O8: by the address's range, the written Word by what a write through the cache leaves in the store. -/
theorem hostReadMemoryBypassesCache : Obligations.HostReadMemoryBypassesCache := by
  refine fun s a => ⟨hostReadMem_of_lt, hostReadMem_of_ge, fun addr v haddr ha hv => ?_⟩
  subst haddr
  have ht := exec_cacheWrite addr v s
  exact ⟨_, _, ht, hostReadMem_after_cacheWrite ha hv ht, rfl⟩

/-- Settles O9: the store is the old one with one Word written. -/
theorem hostWriteMemoryBypassesCache : Obligations.HostWriteMemoryBypassesCache :=
  fun s a v hv => ⟨fun ha => ⟨s.mem.write a v, hostWriteMem_of_lt hv ha, fun x => Memory.read_write s.mem a x v⟩,
    hostWriteMem_of_ge v⟩

end Sys2Proof.HostAccess
end

section
/-! PROOFS. The session (70_reset_and_hazards.md): the state it starts in, what a step can do said once, and the
invariants that every step therefore keeps. -/

namespace Sys2Proof.Session

open Sys2Proof.Machine Sys2Proof.CacheCommands

/-! ### What a step can do -/

/-- What an action leaves before it answers: the state as it was, a decoded instruction's effect, or one Word that the
host wrote in the store. -/
inductive ActionEffect (act : DriverAction) (s : State) : State → Prop where
  | unchanged : ActionEffect act s s
  | command {c : Command} {i : Instr} {t : State} (hact : act = .command c)
      (hdecode : decode s.params.wordWidth c = .instr i) (heffect : Effect i s t) : ActionEffect act s t
  | hostWrite {a : Nat} {v : Word} (hact : act = .writeMem a v) (ha : a < s.params.storeSize) :
      ActionEffect act s (s.setMem (s.mem.write a (s.params.toWord v)))

/-- The host's write of any number is the one of its low bits (log 17). -/
theorem hostWriteMem_toWord (a : Nat) (v : Word) (s : State) :
    hostWriteMem a (s.params.toWord v) s = hostWriteMem a v s := by
  rw [hostWriteMem, hostWriteMem, Params.toWord_of_isWord (Params.isWord_toWord s.params v)]

/-- Every action of the driver answers, and its effect is of one of those kinds (R208, R215). -/
theorem runAction_effect (act : DriverAction) (s : State) :
    ∃ t q, runAction act s = .next (t.setReply q) ∧ ActionEffect act s t := by
  cases act with
  | command c =>
    cases hdecode : decode s.params.wordWidth c with
    | instr i =>
      obtain ⟨t, q, ht, heffect⟩ := exec_effect i s
      exact ⟨t, q, (runCommand_instr s hdecode).trans ht, .command rfl hdecode heffect⟩
    | unknown tag => exact ⟨s, _, runCommand_unknown s hdecode, .unchanged⟩
  | readReg id =>
    rcases Nat.lt_or_ge id 8 with h | h
    · exact ⟨s, _, HostAccess.hostReadReg_of_lt h, .unchanged⟩
    · exact ⟨s, _, HostAccess.hostReadReg_of_ge h, .unchanged⟩
  | readMem a =>
    rcases Nat.lt_or_ge a s.params.storeSize with h | h
    · exact ⟨s, _, HostAccess.hostReadMem_of_lt h, .unchanged⟩
    · exact ⟨s, _, HostAccess.hostReadMem_of_ge h, .unchanged⟩
  | writeMem a v =>
    rcases Nat.lt_or_ge a s.params.storeSize with h | h
    · have hwrite := HostAccess.hostWriteMem_of_lt (Params.isWord_toWord s.params v) h
      exact ⟨_, _, (hostWriteMem_toWord a v s).symm.trans hwrite, .hostWrite rfl h⟩
    · exact ⟨s, _, HostAccess.hostWriteMem_of_ge v h, .unchanged⟩

/-- A step of a legal session: nothing is supplied and nothing changes, or the next action's effect and answer. -/
theorem step_effect {s : State} (hs : s.params.legal) :
    (s.driver = [] ∧ step s = .next s) ∨
      ∃ act rest t q, s.driver = act :: rest ∧ step s = .next (t.setReply q) ∧
        ActionEffect act (s.setDriver rest) t := by
  cases hd : s.driver with
  | nil => exact .inl ⟨rfl, step_idle hs hd⟩
  | cons act rest =>
    obtain ⟨t, q, ht, heffect⟩ := runAction_effect act (s.setDriver rest)
    exact .inr ⟨act, rest, t, q, rfl, (step_cons hs hd).trans ht, heffect⟩

/-- A step that answers a next state was of a legal session, so it did one of these. -/
theorem effect_of_step {s t : State} (h : step s = .next t) :
    t = s ∨ ∃ act rest u q, s.driver = act :: rest ∧ t = u.setReply q ∧ ActionEffect act (s.setDriver rest) u := by
  by_cases hs : s.params.legal
  · rcases step_effect hs with ⟨-, hidle⟩ | ⟨act, rest, u, q, hd, hstep, heffect⟩
    · exact .inl (Host.Outcome.next.inj (h.symm.trans hidle))
    · exact .inr ⟨act, rest, u, q, hd, Host.Outcome.next.inj (h.symm.trans hstep), heffect⟩
  · exact nomatch h.symm.trans (step_illegal hs)

/-! ### What an action keeps -/

theorem effect_driver {i : Instr} {s t : State} (h : Effect i s t) : t.driver = s.driver := by
  induction h with
  | unchanged => rfl
  | read addr =>
    obtain ⟨-, -, -, -, hdriver⟩ := cacheRead_frame addr s
    exact hdriver
  | @write addr v _ _ =>
    obtain ⟨-, -, -, hdriver⟩ := cacheWrite_frame addr v s
    exact hdriver
  | setReg _ _ _ ih => exact ih

/-- An instruction that does not write the address, any of the host's numbers, leaves the store's Word there. -/
theorem effect_mem_read {i : Instr} {s t : State} {x : Nat} (h : Effect i s t)
    (hx : ∀ addr, storesTo i = some addr → addr.toNat ≠ x) : t.mem.read x = s.mem.read x := by
  induction h with
  | unchanged => rfl
  | read addr => rw [cacheRead_mem]
  | @write addr v hi _ =>
    rcases cacheWrite_cases addr v s with ⟨-, hw⟩ | ⟨-, hw⟩ <;> rw [hw]
    · exact (Memory.read_write ..).trans (if_neg (hx addr hi).symm)
    · rfl
  | setReg _ _ _ ih => exact ih

section Action
variable {act : DriverAction} {s t : State}

theorem ActionEffect.params_eq (h : ActionEffect act s t) : t.params = s.params := by
  cases h with
  | unchanged => rfl
  | command _ _ heffect => exact heffect.params_eq
  | hostWrite _ _ => rfl

theorem ActionEffect.driver_eq (h : ActionEffect act s t) : t.driver = s.driver := by
  cases h with
  | unchanged => rfl
  | command _ _ heffect => exact effect_driver heffect
  | hostWrite _ _ => rfl

theorem ActionEffect.inv (h : ActionEffect act s t) (hs : s.Inv) : t.Inv := by
  cases h with
  | unchanged => exact hs
  | command _ _ heffect => exact heffect.inv hs
  | hostWrite _ ha => exact hs.setMem ha (Params.isWord_toWord _ _)

/-- A host write behind the cache keeps coherence where no entry has the address (R206). -/
theorem ActionEffect.coherent (h : ActionEffect act s t) (hs : s.Inv) (hc : s.Coherent)
    (hobeys : ∀ a v, act = .writeMem a v → ¬ s.Caches a) : t.Coherent := by
  cases h with
  | unchanged => exact hc
  | command _ _ heffect => exact heffect.coherent hs hc
  | @hostWrite a v hact _ =>
    intro e he
    have hne : e.addr.toNat ≠ a := fun heq => hobeys a v hact ⟨e, he, heq⟩
    exact (Memory.read_write ..).trans ((if_neg hne).trans (hc e he))

theorem ActionEffect.mem_read {x : Nat} (h : ActionEffect act s t) (hx : t.mem.read x ≠ s.mem.read x) :
    (∃ v, act = .writeMem x v) ∨
      ∃ c i addr, act = .command c ∧ decode s.params.wordWidth c = .instr i ∧ storesTo i = some addr ∧
        addr.toNat = x := by
  cases h with
  | unchanged => exact absurd rfl hx
  | @command c i _ hact hdecode heffect =>
    by_contra hno
    refine hx (effect_mem_read heffect fun addr haddr heq => hno (.inr ?_))
    exact ⟨c, i, addr, hact, hdecode, haddr, heq⟩
  | @hostWrite a v hact _ =>
    by_cases hxa : x = a
    · exact .inl ⟨v, hxa ▸ hact⟩
    · exact absurd ((Memory.read_write ..).trans (if_neg hxa)) hx

end Action

/-! ### Slots that stay valid (R143) -/

/-- `d` has every slot valid that `c` has, and counts at least as many. -/
structure KeepsValid (c d : Cache) : Prop where
  count_le : c.count ≤ d.count
  valid : ∀ (i : Nat) (x : Slot), c.slots[i]? = some x → x.valid = true → ∃ y, d.slots[i]? = some y ∧ y.valid = true

theorem KeepsValid.refl (c : Cache) : KeepsValid c c := ⟨le_refl _, fun _ x hx hv => ⟨x, hx, hv⟩⟩

theorem KeepsValid.trans {c d e : Cache} (hcd : KeepsValid c d) (hde : KeepsValid d e) : KeepsValid c e := by
  refine ⟨hcd.count_le.trans hde.count_le, fun i x hx hv => ?_⟩
  obtain ⟨y, hy, hyv⟩ := hcd.valid i x hx hv
  exact hde.valid i y hy hyv

theorem keepsValid_rankTouch (c : Cache) (h : Nat) : KeepsValid c (c.rankTouch h) := by
  cases hh : c.slots[h]? with
  | none =>
    rw [Cache.rankTouch, hh]
    exact .refl c
  | some th =>
    exact ⟨(Cache.rankTouch_count c h).ge, fun i x hx hv =>
      ⟨_, (Cache.rankTouch_slot hh).2 ⟨x, hx, rfl⟩, by rwa [Slot.touched_valid]⟩⟩

theorem keepsValid_setData (c : Cache) (h : Nat) (v : Word) : KeepsValid c (c.setData h v) :=
  ⟨le_refl _, fun _ x hx hv => ⟨_, Cache.setData_slot.2 ⟨x, hx, rfl⟩, by split_ifs <;> exact hv⟩⟩

/-- A fill takes the free slot or the victim's, and both are valid after it. -/
theorem keepsValid_insert (c : Cache) (n : Nat) (addr : Addr) (v : Word) : KeepsValid c (c.insert n addr v) := by
  unfold Cache.insert
  split_ifs
  · unfold Cache.rankFill
    split
    next k hk =>
      refine ⟨Nat.le_succ _, fun i x hx hv => ?_⟩
      obtain ⟨hi, -⟩ := List.getElem?_eq_some_iff.1 hx
      by_cases hki : k = i
      · subst hki
        exact ⟨_, List.getElem?_set_self hi, rfl⟩
      · exact ⟨x, (List.getElem?_set_ne hki).trans hx, hv⟩
    next => exact .refl c
  · cases hk : c.victim with
    | none =>
      rw [Cache.rankEvictFill, hk]
      exact .refl c
    | some k =>
      exact ⟨(Cache.rankEvictFill_count c n addr v).ge, fun i x hx hv =>
        ⟨_, (Cache.rankEvictFill_slot hk).2 ⟨x, hx, rfl⟩, by rwa [Slot.evictFilled_valid]⟩⟩

theorem keepsValid_update (c : Cache) (n : Nat) (addr : Addr) (v : Word) : KeepsValid c (c.update n addr v) := by
  unfold Cache.update
  split
  next h _ => exact (keepsValid_setData c h v).trans (keepsValid_rankTouch _ h)
  next => exact keepsValid_insert c n addr v

theorem effect_keepsValid {i : Instr} {s t : State} (h : Effect i s t) : KeepsValid s.cache t.cache := by
  induction h with
  | unchanged => exact .refl _
  | read addr =>
    rcases cacheRead_cases addr s with ⟨h, t, -, -, -, -, hr⟩ | ⟨-, -, hr⟩ | ⟨-, -, hr⟩ <;> rw [hr]
    · exact keepsValid_rankTouch s.cache h
    · exact keepsValid_insert s.cache _ addr _
    · exact .refl _
  | @write addr v _ _ =>
    rcases cacheWrite_cases addr v s with ⟨-, hw⟩ | ⟨-, hw⟩ <;> rw [hw]
    · exact keepsValid_update s.cache _ addr v
    · exact .refl _
  | setReg _ _ _ ih => exact ih

theorem ActionEffect.keepsValid {act : DriverAction} {s t : State} (h : ActionEffect act s t) :
    KeepsValid s.cache t.cache := by
  cases h with
  | unchanged => exact .refl _
  | command _ _ heffect => exact effect_keepsValid heffect
  | hostWrite _ _ => exact .refl _

/-! ### The state after reset (R33) -/

theorem validSlots_reset (n : Nat) : (Cache.reset n).validSlots = [] :=
  List.filter_eq_nil_iff.2 fun t ht => by simp [List.eq_of_mem_replicate ht, Slot.reset]

theorem resetWith_inv {p : Params} (hp : p.legal) : (State.resetWith p).Inv := by
  have hslots : (State.resetWith p).cache.validSlots = [] := validSlots_reset p.capacity
  refine ⟨hp, ⟨.nil, nofun⟩, nofun, ⟨List.length_replicate, ?_, ?_, ?_⟩, ?_, fun v hv => ?_, fun t ht => ?_, nofun⟩
  · rw [hslots]; rfl
  · rw [hslots]; exact List.nodup_nil
  · rw [hslots]; exact .nil
  · rw [State.TagsInRange, hslots]; nofun
  · have hzero : v ∈ List.replicate 8 0 := by rwa [State.resetWith, Vector.toList_replicate] at hv
    rw [List.eq_of_mem_replicate hzero]
    exact Params.isWord_zero p
  · rw [List.eq_of_mem_replicate ht]
    exact Params.isWord_zero p

/-- An empty cache has no Word that could differ from the store's. -/
theorem resetWith_coherent (p : Params) : (State.resetWith p).Coherent := nofun

/-! ### The statements -/

/-- Settles O44: every kind of action keeps the invariant. -/
theorem stepKeepsInvariant : Obligations.StepKeepsInvariant := by
  intro s t hs hstep
  rcases effect_of_step hstep with rfl | ⟨act, rest, u, q, -, rfl, heffect⟩
  · exact hs
  · exact (State.setReply_inv u q).2 (heffect.inv ((State.setDriver_inv s rest).2 hs))

/-- Settles O45: an instruction keeps coherence, and the obligation keeps the host's write off the cached addresses. -/
theorem stepKeepsCoherence : Obligations.StepKeepsCoherence := by
  intro s t hs hc hobeys hstep
  rcases effect_of_step hstep with rfl | ⟨act, rest, u, q, hd, rfl, heffect⟩
  · exact hc
  · exact heffect.coherent ((State.setDriver_inv s rest).2 hs) hc fun a v hact => hobeys a v (by rw [hd, hact]; rfl)

/-- Settles O5: no action stops or touches the parameters, and the step has taken it from the supply. -/
theorem everyStepCompletes : Obligations.EveryStepCompletes := by
  intro s hs
  rcases step_effect hs with ⟨hd, hstep⟩ | ⟨act, rest, t, q, hd, hstep, heffect⟩
  · exact ⟨s, hstep, rfl, by rw [hd]; rfl⟩
  · exact ⟨_, hstep, heffect.params_eq, by rw [hd]; exact heffect.driver_eq⟩

/-- Settles O28: no operation of the tracker invalidates a slot. -/
theorem validSlotsStayValid : Obligations.ValidSlotsStayValid := by
  intro s t _ hstep
  have hkeep : KeepsValid s.cache t.cache := by
    rcases effect_of_step hstep with rfl | ⟨act, rest, u, q, -, rfl, heffect⟩
    · exact .refl _
    · exact heffect.keepsValid
  exact ⟨hkeep.count_le, hkeep.valid⟩

/-- Settles O42: an instruction writes only where it stores to, and a step is an instruction's or the host's. -/
theorem onlyWritesChangeTheStore : Obligations.OnlyWritesChangeTheStore := by
  refine ⟨fun s t i x hexec hx => ?_, fun s t x hstep hx => ?_⟩
  · obtain ⟨u, q, rfl, heffect⟩ := effect_of_exec hexec
    have hread := effect_mem_read heffect hx
    exact hread
  · rcases effect_of_step hstep with rfl | ⟨act, rest, u, q, hd, rfl, heffect⟩
    · exact absurd rfl hx
    · rw [hd]
      rcases heffect.mem_read hx with ⟨v, hact⟩ | ⟨c, i, addr, hact, hdecode, haddr, heq⟩
      · exact .inl ⟨v, congrArg some hact⟩
      · exact .inr ⟨c, i, addr, congrArg some hact, hdecode, haddr, heq⟩

/-- Settles O1: every field of the reset state as the table gives it. -/
theorem resetClearsStoreCacheAndRegisters : Obligations.ResetClearsStoreCacheAndRegisters := by
  refine ⟨fun p => ⟨fun _ => rfl, rfl, rfl, List.length_replicate, fun t ht => ?_, fun id hid => ?_, rfl, rfl, rfl,
    rfl⟩, rfl⟩
  · rw [List.eq_of_mem_replicate ht]
    exact ⟨rfl, rfl, rfl, rfl⟩
  · exact Vector.getElem_replicate hid

/-- Settles O2: legal parameters are constructed, and the reset state has no entry and only zero Words. -/
theorem resetEstablishesInvariant : Obligations.ResetEstablishesInvariant :=
  ⟨fun p hp => ⟨_, if_pos hp, resetWith_inv hp, resetWith_coherent p⟩, fun _ hp => if_neg hp,
    resetWith_inv (by decide), resetWith_coherent _⟩

/-- Settles O3: by the kind of the action at the head of the supply. -/
theorem stepRunsSuppliedAction : Obligations.StepRunsSuppliedAction := by
  intro s hs
  refine ⟨step_idle hs, fun c rest hd => ⟨fun i hi => ?_, fun tag htag => ?_⟩, fun id rest hd => step_cons hs hd,
    fun a rest hd => step_cons hs hd, fun a v rest hd => step_cons hs hd⟩
  · exact (step_cons hs hd).trans (runCommand_instr (s.setDriver rest) hi)
  · exact (step_cons hs hd).trans (runCommand_unknown (s.setDriver rest) htag)

/-- A command put at the head of the supply is the one the step runs. -/
theorem step_supply {s : State} {c : Command} {i : Instr} (hs : s.params.legal)
    (hi : decode s.params.wordWidth c = .instr i) : step (s.supply c) = exec i s :=
  (step_cons (s := s.supply c) hs rfl).trans (runCommand_instr s hi)

/-- Bits that read as an instruction are those of a command that decodes to it. -/
theorem command_of_tableInstr {W nbits w : Nat} {i : Instr} (h : tableInstr W nbits w = some i) :
    ∃ c, commandOfTableWord W nbits w = some c ∧ decode W c = .instr i := by
  unfold tableInstr at h
  split at h
  next => cases h
  next c hc =>
    split at h
    next j hj => exact ⟨c, hc, Option.some.inj h ▸ hj⟩
    next => cases h

/-- Settles O4: the placed command stands at the head of the supply. -/
theorem fetchWordRunsNext : Obligations.FetchWordRunsNext := by
  intro s nbits w i hs
  have hrun (h : tableInstr s.params.wordWidth nbits w = some i) : step (s.withFetchWord nbits w) = exec i s := by
    obtain ⟨c, hc, hi⟩ := command_of_tableInstr h
    rw [State.withFetchWord, hc]
    exact step_supply hs hi
  refine ⟨hrun, fun hW h => hrun ?_⟩
  rw [hW]
  exact h

/-- Settles O6: each of the four is excluded by the legal parameters. -/
theorem illegalParametersAreRefused : Obligations.IllegalParametersAreRefused := by
  intro s hbad
  refine step_illegal fun ⟨hW, hN, hmax, hC⟩ => ?_
  rw [Config.addressSpace] at hmax
  omega

end Sys2Proof.Session
end

section
/-! PROOFS. Simulation: the seven meanings are written over four operations, so two machines whose operations agree
run every instruction alike. Three uses: the machine with the cache removed (40_cache_commands.md R121), states that
differ in slots only (10_state.md section 8), and states that differ in what was answered and recorded before
(60_exceptions.md section 4). -/

namespace Sys2Proof.Simulation

open Sys2Proof.Machine Sys2Proof.CacheCommands

/-! ### The meanings over any machine's operations -/

/-- Two outcomes answer the same value in related states. -/
def Agree {α σ τ : Type} (R : σ → τ → Prop) (r : Result α × σ) (r' : Result α × τ) : Prop := r.1 = r'.1 ∧ R r.2 r'.2

theorem Agree.andThen {α β σ τ : Type} {R : σ → τ → Prop} {r : Result α × σ} {r' : Result α × τ}
    {k : α → σ → Result β × σ} {k' : α → τ → Result β × τ} (h : Agree R r r')
    (hk : ∀ v, R r.2 r'.2 → Agree R (k v r.2) (k' v r'.2)) : Agree R (andThen r k) (andThen r' k') := by
  obtain ⟨x, s⟩ := r
  obtain ⟨x', t⟩ := r'
  obtain ⟨rfl, hR⟩ := h
  cases x with
  | ok v => exact hk v hR
  | err e => exact ⟨rfl, hR⟩

/-- What an instruction's meaning uses of a machine. -/
structure Ops (σ : Type) where
  params : σ → Params
  regs : σ → Vector Word 8
  setRegs : σ → Vector Word 8 → σ
  read : Addr → σ → Result Word × σ
  write : Addr → Word → σ → Result Unit × σ

section Meaning
variable {σ : Type} (o : Ops σ)

def Ops.getReg (id : Nat) (s : σ) : Result Word × σ := (regGet (o.regs s) id, s)

def Ops.setReg (id : Nat) (v : Word) (s : σ) : Result Unit × σ :=
  match regSet (o.regs s) id v with
  | .ok r => (.ok (), o.setRegs s r)
  | .err e => raise e s

/-- The rules of R150 to R154, R102 and R105 over a machine's operations. -/
def Ops.meaning (i : Instr) (s : σ) : Reply × σ :=
  match i with
  | .cacheRead addr => andThen (o.read addr s) fun v s1 => (.ok (some v), s1)
  | .cacheWrite addr v => andThen (o.write addr ((o.params s).toWord v) s) fun _ s1 => (.ok none, s1)
  | .load a b =>
    andThen (o.read b s) fun v s1 => andThen (o.setReg a.toNat v s1) fun _ s2 => (.ok none, s2)
  | .store a b =>
    andThen (o.getReg a.toNat s) fun v s1 => andThen (o.write b v s1) fun _ s2 => (.ok none, s2)
  | .add a b =>
    andThen (o.getReg b.toNat s) fun p s1 => andThen (o.getReg a.toNat s1) fun q s2 =>
      andThen (o.setReg a.toNat (wordAdd (o.params s).wordWidth p q) s2) fun _ s3 => (.ok none, s3)
  | .sub a b =>
    andThen (o.getReg a.toNat s) fun p s1 => andThen (o.getReg b.toNat s1) fun q s2 =>
      andThen (o.setReg a.toNat (wordSub (o.params s).wordWidth p q) s2) fun _ s3 => (.ok none, s3)
  | .nop => (.ok none, s)

end Meaning

/-- The machine of `exec`. -/
def cachedOps : Ops State where
  params := State.params
  regs := State.regs
  setRegs := State.setRegs
  read := cacheRead
  write := cacheWrite

/-- The machine of `flatExec`. -/
def flatOps : Ops Flat where
  params := Flat.params
  regs := Flat.regs
  setRegs f r := { f with regs := r }
  read := Flat.load
  write := Flat.save

theorem exec_eq_meaning (i : Instr) (s : State) : exec i s = respond (cachedOps.meaning i s) := by
  cases i <;> rfl

theorem flatExec_eq_meaning (i : Instr) (f : Flat) : flatExec i f = flatOps.meaning i f := by
  cases i <;> rfl

/-! ### The simulation -/

/-- Related states have the same registers, and writing them the same way relates them again. -/
structure RegsAgree {σ τ : Type} (o : Ops σ) (p : Ops τ) (R : σ → τ → Prop) : Prop where
  regs : ∀ {s t}, R s t → o.regs s = p.regs t
  setRegs : ∀ {s t} (r), R s t → R (o.setRegs s r) (p.setRegs t r)

section Simulation
variable {σ τ : Type} {o : Ops σ} {p : Ops τ} {R : σ → τ → Prop} {s : σ} {t : τ}

theorem RegsAgree.getReg (hR : RegsAgree o p R) (h : R s t) (id : Nat) : Agree R (o.getReg id s) (p.getReg id t) :=
  ⟨by rw [Ops.getReg, Ops.getReg, hR.regs h], h⟩

theorem RegsAgree.setReg (hR : RegsAgree o p R) (h : R s t) (id : Nat) (v : Word) :
    Agree R (o.setReg id v s) (p.setReg id v t) := by
  rw [Ops.setReg, Ops.setReg, hR.regs h]
  cases regSet (p.regs t) id v with
  | ok r => exact ⟨rfl, hR.setRegs r h⟩
  | err e => exact ⟨rfl, h⟩

/-- Related states whose reads and writes of the cache agree run every instruction alike. A meaning reaches the cache
at most once, before it writes a register, so they need only agree in the states at hand. -/
theorem meaning_agree (hR : RegsAgree o p R) (h : R s t) (hparams : o.params s = p.params t)
    (hread : ∀ addr, Agree R (o.read addr s) (p.read addr t))
    (hwrite : ∀ addr v, Agree R (o.write addr v s) (p.write addr v t)) (i : Instr) :
    Agree R (o.meaning i s) (p.meaning i t) := by
  unfold Ops.meaning
  rw [hparams]
  cases i with
  | cacheRead addr => exact (hread addr).andThen fun v h1 => ⟨rfl, h1⟩
  | cacheWrite addr v => exact (hwrite addr _).andThen fun _ h1 => ⟨rfl, h1⟩
  | load a b => exact (hread b).andThen fun v h1 => (hR.setReg h1 _ v).andThen fun _ h2 => ⟨rfl, h2⟩
  | store a b => exact (hR.getReg h _).andThen fun v _ => (hwrite b v).andThen fun _ h2 => ⟨rfl, h2⟩
  | add a b =>
    exact (hR.getReg h _).andThen fun x h1 => (hR.getReg h1 _).andThen fun y h2 =>
      (hR.setReg h2 _ _).andThen fun _ h3 => ⟨rfl, h3⟩
  | sub a b =>
    exact (hR.getReg h _).andThen fun x h1 => (hR.getReg h1 _).andThen fun y h2 =>
      (hR.setReg h2 _ _).andThen fun _ h3 => ⟨rfl, h3⟩
  | nop => exact ⟨rfl, h⟩

end Simulation

/-- Outcomes that agree are answered alike. -/
theorem Agree.respond {R : State → State → Prop} {r r' : Reply × State} (h : Agree R r r') :
    ∃ q t t', respond r = .next (t.setReply q) ∧ respond r' = .next (t'.setReply q) ∧ R t t' :=
  ⟨r.1, r.2, r'.2, rfl, by rw [Machine.respond, h.1], h.2⟩

/-- The simulation for two states of the machine itself. -/
theorem exec_agree {R : State → State → Prop} {s s' : State} (hR : RegsAgree cachedOps cachedOps R) (h : R s s')
    (hparams : s.params = s'.params) (hread : ∀ addr, Agree R (cacheRead addr s) (cacheRead addr s'))
    (hwrite : ∀ addr v, Agree R (cacheWrite addr v s) (cacheWrite addr v s')) (i : Instr) :
    ∃ q t t', exec i s = .next (t.setReply q) ∧ exec i s' = .next (t'.setReply q) ∧ R t t' := by
  rw [exec_eq_meaning, exec_eq_meaning]
  exact (meaning_agree hR h hparams hread hwrite i).respond

/-! ### The machine with the cache removed (R121) -/

/-- Under coherence a cache read answers what the store holds, and no read changes a value. -/
theorem cacheRead_agree_flat {s : State} (hs : s.Inv) (hc : s.Coherent) (addr : Addr) :
    Agree (fun s f => s.flat = f) (cacheRead addr s) (Flat.load addr s.flat) := by
  obtain ⟨hparams, hregs, hmem, -⟩ := cacheRead_frame addr s
  have hflat : (cacheRead addr s).2.flat = s.flat := by
    rw [State.flat, hparams, hregs, hmem, State.flat]
  refine ⟨?_, hflat⟩
  rw [Encoding.cacheRead_fst hs, visibleWord_of_coherent hc]
  rfl

/-- A cache write is the store's, on hits and misses alike. -/
theorem cacheWrite_agree_flat (s : State) (addr : Addr) (v : Word) :
    Agree (fun s f => s.flat = f) (cacheWrite addr v s) (Flat.save addr v s.flat) := by
  rcases cacheWrite_cases addr v s with ⟨ha, hw⟩ | ⟨ha, hw⟩
  · have hstore : storeWrite s.flat.params s.flat.mem addr.toNat v = _ := storeWrite_of_lt v ha
    rw [hw, Flat.save, hstore]
    exact ⟨rfl, rfl⟩
  · have hstore : storeWrite s.flat.params s.flat.mem addr.toNat v = _ := storeWrite_of_ge v ha
    rw [hw, Flat.save, hstore]
    exact ⟨rfl, rfl⟩

theorem exec_flat {s : State} (hs : s.Inv) (hc : s.Coherent) (i : Instr) :
    ∃ t, exec i s = .next t ∧ t.reply = some (flatExec i s.flat).1 ∧ t.flat = (flatExec i s.flat).2 := by
  have hregs : RegsAgree cachedOps flatOps fun s f => s.flat = f :=
    ⟨fun h => congrArg Flat.regs h, fun r h => by subst h; rfl⟩
  obtain ⟨hq, ht⟩ := meaning_agree hregs rfl rfl (cacheRead_agree_flat hs hc) (cacheWrite_agree_flat s) i
  rw [flatExec_eq_meaning]
  exact ⟨_, exec_eq_meaning i s, congrArg some hq, ht⟩

/-! ### Slots of the same abstract view (R140) -/

/-- Same parameters, registers and abstract view. -/
structure SameView (s s' : State) : Prop where
  params : s.params = s'.params
  regs : s.regs = s'.regs
  abs : s.abs = s'.abs

theorem sameView_regsAgree : RegsAgree cachedOps cachedOps SameView :=
  ⟨SameView.regs, fun _ h => ⟨h.params, rfl, h.abs⟩⟩

/-- Two states of the invariant with the same view read alike: both reads are the abstract one (R141). -/
theorem SameView.cacheRead {s s' : State} (h : SameView s s') (hs : s.Inv) (hs' : s'.Inv) (addr : Addr) :
    Agree SameView (cacheRead addr s) (cacheRead addr s') := by
  have habs := hs.absCacheRead addr
  rw [h.params, h.abs, hs'.absCacheRead addr] at habs
  obtain ⟨hvalue, hview⟩ := Prod.ext_iff.1 habs
  obtain ⟨hparams, hregs, -⟩ := cacheRead_frame addr s
  obtain ⟨hparams', hregs', -⟩ := cacheRead_frame addr s'
  exact ⟨hvalue.symm, by rw [hparams, hparams', h.params], by rw [hregs, hregs', h.regs], hview.symm⟩

theorem SameView.cacheWrite {s s' : State} (h : SameView s s') (hs : s.Inv) (hs' : s'.Inv) (addr : Addr) (v : Word) :
    Agree SameView (cacheWrite addr v s) (cacheWrite addr v s') := by
  have habs := hs.absCacheWrite addr v
  rw [h.params, h.abs, hs'.absCacheWrite addr v] at habs
  obtain ⟨hvalue, hview⟩ := Prod.ext_iff.1 habs
  obtain ⟨hparams, hregs, -⟩ := cacheWrite_frame addr v s
  obtain ⟨hparams', hregs', -⟩ := cacheWrite_frame addr v s'
  exact ⟨hvalue.symm, by rw [hparams, hparams', h.params], by rw [hregs, hregs', h.regs], hview.symm⟩

/-! ### Other earlier answers and another trace (R178, R31) -/

/-- `s'` is `s` with another last answer, and with `tr'` in the place of the trace `tr` that both began with. -/
def SameButRecords (tr tr' : List MemEvent) (s s' : State) : Prop :=
  ∃ new r, s.trace = tr ++ new ∧ s' = { s with reply := r, trace := tr' ++ new }

section Records
variable {tr tr' : List MemEvent} {s s' : State}

theorem sameButRecords_regsAgree : RegsAgree cachedOps cachedOps (SameButRecords tr tr') := by
  refine ⟨?_, ?_⟩
  · rintro s _ ⟨new, r, -, rfl⟩
    rfl
  · rintro s _ regs ⟨new, r, htr, rfl⟩
    exact ⟨new, r, htr, rfl⟩

theorem SameButRecords.setCache (h : SameButRecords tr tr' s s') (c : Cache) :
    SameButRecords tr tr' (s.setCache c) (s'.setCache c) := by
  obtain ⟨new, r, htr, rfl⟩ := h
  exact ⟨new, r, htr, rfl⟩

theorem SameButRecords.setMem (h : SameButRecords tr tr' s s') (m : Memory) :
    SameButRecords tr tr' (s.setMem m) (s'.setMem m) := by
  obtain ⟨new, r, htr, rfl⟩ := h
  exact ⟨new, r, htr, rfl⟩

theorem SameButRecords.record (h : SameButRecords tr tr' s s') (e : MemEvent) :
    SameButRecords tr tr' (s.record e) (s'.record e) := by
  obtain ⟨new, r, htr, rfl⟩ := h
  refine ⟨new ++ [e], r, ?_, ?_⟩
  · rw [State.record_trace, htr, List.append_assoc]
  · simp only [State.record, List.append_assoc]

theorem SameButRecords.memRead (h : SameButRecords tr tr' s s') (addr : Addr) :
    Agree (SameButRecords tr tr') (memRead addr s) (memRead addr s') := by
  have hsame : storeRead s.params s.mem addr.toNat = storeRead s'.params s'.mem addr.toNat := by
    obtain ⟨new, r, -, rfl⟩ := h
    rfl
  rw [Machine.memRead, Machine.memRead, ← hsame]
  cases storeRead s.params s.mem addr.toNat with
  | ok v => exact ⟨rfl, h.record _⟩
  | err e => exact ⟨rfl, h.record _⟩

theorem SameButRecords.memWrite (h : SameButRecords tr tr' s s') (addr : Addr) (v : Word) :
    Agree (SameButRecords tr tr') (memWrite addr v s) (memWrite addr v s') := by
  have hsame : storeWrite s.params s.mem addr.toNat v = storeWrite s'.params s'.mem addr.toNat v := by
    obtain ⟨new, r, -, rfl⟩ := h
    rfl
  rw [Machine.memWrite, Machine.memWrite, ← hsame]
  cases storeWrite s.params s.mem addr.toNat v with
  | ok m => exact ⟨rfl, (h.setMem m).record _⟩
  | err e => exact ⟨rfl, h.record _⟩

theorem SameButRecords.cache_eq (h : SameButRecords tr tr' s s') : s'.cache = s.cache := by
  obtain ⟨new, r, -, rfl⟩ := h
  rfl

theorem SameButRecords.params_eq (h : SameButRecords tr tr' s s') : s'.params = s.params := by
  obtain ⟨new, r, -, rfl⟩ := h
  rfl

theorem SameButRecords.cacheRead (h : SameButRecords tr tr' s s') (addr : Addr) :
    Agree (SameButRecords tr tr') (cacheRead addr s) (cacheRead addr s') := by
  rw [Machine.cacheRead, Machine.cacheRead, h.cache_eq]
  cases s.cache.lookup addr with
  | some k => exact ⟨rfl, h.setCache _⟩
  | none =>
    refine (h.memRead addr).andThen fun v h1 => ⟨rfl, ?_⟩
    rw [h1.cache_eq, h1.params_eq]
    exact h1.setCache _

theorem SameButRecords.cacheWrite (h : SameButRecords tr tr' s s') (addr : Addr) (v : Word) :
    Agree (SameButRecords tr tr') (cacheWrite addr v s) (cacheWrite addr v s') := by
  refine (h.memWrite addr v).andThen fun _ h1 => ⟨rfl, ?_⟩
  rw [h1.cache_eq, h1.params_eq]
  exact h1.setCache _

theorem SameButRecords.hostAnswer (h : SameButRecords tr tr' s s') (x : Result Word) :
    Agree (SameButRecords tr tr') (hostAnswer x s) (hostAnswer x s') := by
  cases x with
  | ok v => exact ⟨rfl, h⟩
  | err e => exact ⟨rfl, h⟩

/-- No action reads the records: the decoder reads the width, the host the registers and the store. -/
theorem SameButRecords.runAction (h : SameButRecords tr tr' s s') (act : DriverAction) :
    ∃ q t t', runAction act s = .next (t.setReply q) ∧ runAction act s' = .next (t'.setReply q) ∧
      SameButRecords tr tr' t t' := by
  have hsame := h
  obtain ⟨new, r, -, rfl⟩ := hsame
  cases act with
  | command c =>
    rw [Machine.runAction, Machine.runAction, runCommand, runCommand]
    cases decode s.params.wordWidth c with
    | instr i => exact exec_agree sameButRecords_regsAgree h rfl h.cacheRead h.cacheWrite i
    | unknown tag => exact Agree.respond ⟨rfl, h⟩
  | readReg id => exact (h.hostAnswer (regGet s.regs id)).respond
  | readMem a => exact (h.hostAnswer (storeRead s.params s.mem a)).respond
  | writeMem a v =>
    rw [Machine.runAction, Machine.runAction, hostWriteMem, hostWriteMem]
    refine Agree.respond ?_
    cases storeWrite s.params s.mem a (s.params.toWord v) with
    | ok m => exact ⟨rfl, h.setMem m⟩
    | err e => exact ⟨rfl, h⟩

end Records

/-! ### The statements -/

/-- Settles O47: each command keeps the invariant and coherence, so the simulation goes on to the end of the list. -/
theorem cacheIsTransparentInValues : Obligations.CacheIsTransparentInValues := by
  intro s is hs hc
  induction is generalizing s with
  | nil => exact ⟨s, rfl, rfl⟩
  | cons i is ih =>
    obtain ⟨u, hu, hreply, hflat⟩ := exec_flat hs hc i
    obtain ⟨t, hrun, hend⟩ := ih u (exec_inv hu hs) (exec_coherent hu hs hc)
    rw [hflat] at hrun hend
    refine ⟨t, ?_, hend⟩
    rw [runReplies, hu]
    simp only [hrun, hreply, flatRun, List.map_cons]

/-- Settles O24: a command's answer is its operation's, which is the abstract one. -/
theorem slotLevelSimulatesAbstractCache : Obligations.SlotLevelSimulatesAbstractCache := by
  intro s addr hs
  refine ⟨⟨_, exec_cacheRead addr s, ?_⟩, fun v hv => ⟨_, exec_cacheWrite addr v s, ?_⟩⟩
  · rw [hs.absCacheRead addr]
    exact ⟨rfl, by cases (cacheRead addr s).1 <;> rfl⟩
  · rw [Params.toWord_of_isWord hv, hs.absCacheWrite addr v]
    exact ⟨rfl, by cases (cacheWrite addr v s).1 <;> rfl⟩

/-- Settles O25: the abstract commands decide what both states answer and leave. -/
theorem slotPlacementIsUnobservable : Obligations.SlotPlacementIsUnobservable := by
  intro s s' i hs hs' hparams hregs habs
  have hview : SameView s s' := ⟨hparams, hregs, habs⟩
  obtain ⟨q, t, t', ht, ht', hend⟩ := exec_agree sameView_regsAgree hview hparams
    (hview.cacheRead hs hs') (hview.cacheWrite hs hs') i
  exact ⟨_, _, ht, ht', rfl, hend.regs, hend.abs⟩

/-- Settles O40: the action runs alike on both states, and the answer it puts covers the earlier one. -/
theorem earlierAnswersAreNotRead : Obligations.EarlierAnswersAreNotRead := by
  intro s r tr hs hd
  obtain ⟨act, rest, hd⟩ := List.exists_cons_of_ne_nil hd
  have hstart : SameButRecords s.trace tr (s.setDriver rest) ({ s with reply := r, trace := tr }.setDriver rest) :=
    ⟨[], r, (List.append_nil _).symm, by rw [List.append_nil]; rfl⟩
  obtain ⟨q, t, _, ht, ht', new, r', htrace, rfl⟩ := hstart.runAction act
  refine ⟨t.setReply q, new, ?_, ?_⟩
  · rw [step_cons hs hd, ht, ← htrace]
    rfl
  · exact (step_cons (s := { s with reply := r, trace := tr }) hs hd).trans ht'

end Sys2Proof.Simulation
end

section
/-! PROOFS. Recency and staleness (40_cache_commands.md section 6, 70_reset_and_hazards.md section 4): which addresses
are cached after a history of accesses, and what a host write behind the cache leaves until the entry goes. -/

namespace Sys2Proof.Recency

open Sys2Proof.Machine Sys2Proof.CacheCommands

/-! ### The order of last uses (R119) -/

/-- One more use: the address last, and at its earlier place no more. -/
def useLast (l : List Addr) (q : Addr) : List Addr := l.filter (fun p => p ≠ q) ++ [q]

theorem useLast_of_notMem {l : List Addr} {q : Addr} (hq : q ∉ l) : useLast l q = l ++ [q] := by
  rw [useLast, filter_ne_of_notMem hq]

theorem useLast_nodup {l : List Addr} (hl : l.Nodup) (q : Addr) : (useLast l q).Nodup :=
  List.nodup_append.2 ⟨hl.filter _, List.nodup_singleton q, fun a ha b hb => by
    rw [List.mem_singleton.1 hb]
    exact of_decide_eq_true (List.mem_filter.1 ha).2⟩

theorem lastUses_append (l qs : List Addr) : lastUses (l ++ qs) = qs.foldl useLast (lastUses l) :=
  List.foldl_append

/-- Addresses used once each are in the order of their last use. -/
theorem lastUses_of_nodup {l : List Addr} (hl : l.Nodup) : lastUses l = l := by
  induction l using List.reverseRecOn with
  | nil => rfl
  | append_singleton l q ih =>
    obtain ⟨hinit, -, hnew⟩ := List.nodup_append.1 hl
    have hq : q ∉ l := fun h => hnew q h q List.mem_cons_self rfl
    rw [lastUses_append, ih hinit, List.foldl_cons, List.foldl_nil, useLast_of_notMem hq]

/-! ### The last entries of a list -/

theorem lastN_of_suffix {α : Type} {n : Nat} {p l : List α} (hp : p <:+ l) (hn : n ≤ p.length) :
    lastN n p = lastN n l := by
  obtain ⟨r, rfl⟩ := hp
  rw [lastN, lastN, List.length_append, Nat.add_sub_assoc hn, List.drop_length_add_append]

/-- Of different addresses only one can be `q`. -/
theorem length_le_filter_ne {l : List Addr} (hl : l.Nodup) (q : Addr) :
    l.length ≤ (l.filter fun p => p ≠ q).length + 1 := by
  have herase : l.filter (fun p => p ≠ q) = l.erase q := by
    rw [hl.erase_eq_filter]
    exact List.filter_congr fun p _ => by simp [bne, BEq.beq]
  rw [herase, List.length_erase]
  split_ifs <;> omega

/-- Forgetting all but the last `n` addresses does not change which `n` are the last after another use. -/
theorem afterAccess_lastN {n : Nat} {l : List Addr} (hl : l.Nodup) (q : Addr) :
    afterAccess n (lastN n l) q = lastN n (useLast l q) := by
  rcases Nat.le_total l.length n with hle | hge
  · rw [lastN_of_length_le hle]
    rfl
  · have hkept : (lastN n l).length = n := by rw [lastN, List.length_drop]; omega
    have hsuffix : lastN n l <:+ l := List.drop_suffix _ l
    have hcount := length_le_filter_ne (hl.sublist hsuffix.sublist) q
    refine lastN_of_suffix (List.suffix_append_inj_of_length_eq rfl |>.2 ⟨hsuffix.filter _, rfl⟩) ?_
    rw [List.length_append, List.length_singleton]
    omega

/-- Accesses keep the cached addresses the last `C` of the history by last use. -/
theorem runInstrs_lastUses {as : List (Addr × Option Word)} {s : State} {l : List Addr} (hs : s.Inv) (hl : l.Nodup)
    (horder : s.cachedAddrs = lastN s.params.capacity l) (has : ∀ p ∈ as, p.1.toNat < s.params.storeSize) :
    ∃ t, runInstrs (accesses as) s = .next t ∧
      t.cachedAddrs = lastN s.params.capacity ((as.map Prod.fst).foldl useLast l) := by
  induction as generalizing s l with
  | nil => exact ⟨s, rfl, horder⟩
  | cons a as ih =>
    obtain ⟨q, w⟩ := a
    obtain ⟨t, ht, hnext⟩ := exec_access w hs (has (q, w) List.mem_cons_self)
    have hparams := exec_params ht
    rw [horder, afterAccess_lastN hl, ← hparams] at hnext
    obtain ⟨u, hrun, hend⟩ := ih (exec_inv ht hs) (useLast_nodup hl q) hnext
      (fun p hp => hparams ▸ has p (List.mem_cons_of_mem _ hp))
    exact ⟨u, (runInstrs_cons ht).trans hrun, hparams ▸ hend⟩

/-! ### Which entries an instruction can leave -/

theorem mem_cachedAddrs {s : State} {e : Entry} (he : e ∈ s.entries) : e.addr ∈ s.cachedAddrs :=
  List.mem_map_of_mem he

theorem notMem_cachedAddrs_of_miss {s : State} {addr : Addr} (hs : s.Inv) (hl : s.cache.lookup addr = none) :
    addr ∉ s.cachedAddrs := by
  intro h
  obtain ⟨e, he, haddr⟩ := List.mem_map.1 h
  exact lookupEntry_none.1 (lookupEntry_of_miss hs hl) e he haddr

/-- An address has at most one entry (INV-UNIQ, R27). -/
theorem entry_unique {s : State} {d e : Entry} (hs : s.Inv) (hd : d ∈ s.entries) (he : e ∈ s.entries)
    (haddr : d.addr = e.addr) : d = e := by
  obtain ⟨i, hi⟩ := List.getElem?_of_mem hd
  obtain ⟨j, hj⟩ := List.getElem?_of_mem he
  obtain rfl := hs.tracks.abs_addr_inj hi hj haddr
  exact Option.some.inj (hi.symm.trans hj)

/-- An entry after an instruction stood there before, or fills a miss, or is of the address written. -/
theorem effect_mem_entries {i : Instr} {s t : State} {e : Entry} (h : Effect i s t) (hs : s.Inv) (he : e ∈ t.entries) :
    e ∈ s.entries ∨ e.addr ∉ s.cachedAddrs ∨ storesTo i = some e.addr := by
  induction h with
  | unchanged => exact .inl he
  | read addr =>
    rcases cacheRead_cases addr s with ⟨h, t, -, hi, hv, -, hr⟩ | ⟨hl, -, hr⟩ | ⟨-, -, hr⟩ <;> rw [hr] at he
    · rw [State.setCache_entries, hs.tracks.abs_rankTouch hi hv] at he
      exact .inl (mem_of_mem_touchEntry he)
    · rw [State.setCache_entries, hs.tracks.abs_insert hs.capacity_pos hl] at he
      rcases mem_insertEntry he with hmem | rfl
      · exact .inl hmem
      · exact .inr (.inl (notMem_cachedAddrs_of_miss hs hl))
    · exact .inl he
  | @write addr v hi _ =>
    rcases cacheWrite_cases addr v s with ⟨-, hw⟩ | ⟨-, hw⟩ <;> rw [hw] at he
    · rw [State.setCache_entries] at he
      rcases hs.tracks.mem_update hs.capacity_pos he with rfl | ⟨hmem, -⟩
      · exact .inr (.inr hi)
      · exact .inl hmem
    · exact .inl he
  | setReg _ _ _ ih => exact ih he

/-- An instruction that does not write an address leaves its entry as it was, or evicts it. -/
theorem exec_entry_or_evicted {i : Instr} {s t : State} {d : Entry} (h : exec i s = .next t) (hs : s.Inv)
    (hd : d ∈ s.entries) (hi : storesTo i ≠ some d.addr) : d ∈ t.entries ∨ d.addr ∉ t.cachedAddrs := by
  obtain ⟨u, q, rfl, heffect⟩ := effect_of_exec h
  by_cases hcached : d.addr ∈ (u.setReply q).cachedAddrs
  · obtain ⟨e, he, haddr⟩ := List.mem_map.1 hcached
    rcases effect_mem_entries heffect hs he with hmem | hnew | hstore
    · rw [entry_unique hs hd hmem haddr.symm]
      exact .inl he
    · exact absurd (haddr ▸ mem_cachedAddrs hd) hnew
    · exact absurd (haddr ▸ hstore) hi
  · exact .inr hcached

/-! ### Reading a cached and an uncached address -/

theorem exec_cacheRead_hit {s : State} {addr : Addr} {w : Word} (hs : s.Inv)
    (he : { addr := addr, word := w } ∈ s.entries) :
    ∃ t, exec (.cacheRead addr) s = .next t ∧ t.reply = some (.ok (some w)) ∧ t.trace = s.trace := by
  obtain ⟨h, hr⟩ := cacheRead_of_mem hs he
  refine ⟨_, exec_cacheRead addr s, ?_⟩
  rw [hr]
  exact ⟨rfl, rfl⟩

theorem exec_cacheRead_miss {s : State} {addr : Addr} (hs : s.Inv) (haddr : addr.toNat < s.params.storeSize)
    (hmiss : addr ∉ s.cachedAddrs) :
    ∃ t, exec (.cacheRead addr) s = .next t ∧ t.reply = some (.ok (some (s.mem.read addr.toNat))) ∧
      t.trace = s.trace ++ [.mr addr (s.mem.read addr.toNat)] := by
  refine ⟨_, exec_cacheRead addr s, ?_⟩
  rcases cacheRead_cases addr s with ⟨h, t, -, hi, hv, rfl, -⟩ | ⟨-, -, hr⟩ | ⟨-, hge, -⟩
  · exact absurd (mem_cachedAddrs (hs.tracks.mem_abs.2 ⟨h, t, hi, hv, rfl⟩)) hmiss
  · rw [hr]
    exact ⟨rfl, rfl⟩
  · omega

/-! ### A host write at a cached address (R206) -/

/-- The step of a host write of a Word at a valid address: that Word of the store and no entry has changed (R211). -/
theorem step_hostWrite {s : State} {a : Nat} {v : Word} {rest : List DriverAction} (hs : s.Inv)
    (hv : s.params.isWord v) (ha : a < s.params.storeSize) (hd : s.driver = .writeMem a v :: rest) :
    ∃ t, step s = .next t ∧ t.Inv ∧ t.params = s.params ∧ t.entries = s.entries ∧
      ∀ x, t.mem.read x = if x = a then v else s.mem.read x := by
  have hinv : (s.setDriver rest).Inv := (State.setDriver_inv s rest).2 hs
  refine ⟨_, (step_cons hs.1 hd).trans (HostAccess.hostWriteMem_of_lt (s := s.setDriver rest) hv ha), ?_, rfl, rfl,
    fun x => Memory.read_write s.mem a x v⟩
  exact (State.setReply_inv _ _).2 (hinv.setMem ha hv)

/-- A write puts its Word in store and cache alike, so it restores coherence where only its address lacked it. -/
theorem coherent_cacheWrite_of_except {s : State} {addr : Addr} (v : Word) (hs : s.Inv)
    (haddr : addr.toNat < s.params.storeSize)
    (hc : ∀ e ∈ s.entries, e.addr ≠ addr → s.mem.read e.addr.toNat = e.word) : (cacheWrite addr v s).2.Coherent := by
  intro e he
  rcases cacheWrite_cases addr v s with ⟨-, hw⟩ | ⟨hge, -⟩
  · rw [hw] at he ⊢
    simp only [State.setCache_mem, State.record_mem, State.setMem_mem, Memory.read_write]
    rcases hs.tracks.mem_update hs.capacity_pos he with rfl | ⟨hmem, hne⟩
    · exact if_pos rfl
    · rw [if_neg fun h => hne (BitVec.eq_of_toNat_eq h)]
      exact hc e hmem hne
  · omega

/-- Through commands that do not write its address an entry stays and goes on hitting, or some first part of them has
evicted it, and the next read is of the store. -/
theorem runInstrs_entry_or_evicted {s : State} {addr : Addr} {w v : Word} {is : List Instr} (hs : s.Inv)
    (he : { addr := addr, word := w } ∈ s.entries) (hv : s.mem.read addr.toNat = v)
    (his : ∀ i ∈ is, storesTo i ≠ some addr) :
    (∃ u, runInstrs is s = .next u ∧ { addr := addr, word := w } ∈ u.entries ∧
      ∃ u', exec (.cacheRead addr) u = .next u' ∧ u'.reply = some (.ok (some w)) ∧ u'.trace = u.trace) ∨
    (∃ before after u, is = before ++ after ∧ runInstrs before s = .next u ∧ addr ∉ u.cachedAddrs ∧
      ∃ u', exec (.cacheRead addr) u = .next u' ∧ u'.reply = some (.ok (some v)) ∧
        u'.trace = u.trace ++ [.mr addr v]) := by
  induction is generalizing s with
  | nil => exact .inl ⟨s, rfl, he, exec_cacheRead_hit hs he⟩
  | cons i is ih =>
    obtain ⟨t, -, ht, -⟩ := exec_next i s
    have hi := his i List.mem_cons_self
    have hinv := exec_inv ht hs
    have hstore := (exec_mem_read ht hi).trans hv
    rcases exec_entry_or_evicted ht hs he hi with hstay | hgone
    · rcases ih hinv hstay hstore (fun j hj => his j (List.mem_cons_of_mem _ hj)) with
        ⟨u, hrun, hend⟩ | ⟨before, after, u, rfl, hrun, hend⟩
      · exact .inl ⟨u, (runInstrs_cons ht).trans hrun, hend⟩
      · exact .inr ⟨i :: before, after, u, rfl, (runInstrs_cons ht).trans hrun, hend⟩
    · have haddr : addr.toNat < t.params.storeSize := by
        rw [exec_params ht]
        exact hs.entry_lt he
      have hmiss := exec_cacheRead_miss hinv haddr hgone
      rw [hstore] at hmiss
      exact .inr ⟨[i], is, t, rfl, (runInstrs_cons ht).trans rfl, hgone, hmiss⟩

/-! ### The statements -/

/-- Settles O23: the history begins as the cached addresses, and each access keeps them its last `C` by last use. -/
theorem cacheHoldsLastUsedAddresses : Obligations.CacheHoldsLastUsedAddresses := by
  intro s as hs has
  have hu := cachedAddrs_nodup hs
  rw [lastUses_append, lastUses_of_nodup hu]
  exact runInstrs_lastUses hs hu (lastN_of_length_le (cachedAddrs_length_le hs)).symm has

/-- Settles O46: the host's write changes the store's Word alone, so only that address lacks coherence, and only until
it is written or evicted. -/
theorem hostWriteBehindCacheIsStale : Obligations.HostWriteBehindCacheIsStale := by
  intro s addr w v rest hs hv he hvw hd
  have haddr : addr.toNat < s.params.storeSize := hs.entry_lt he
  obtain ⟨t, hstep, hinv, hparams, hentries, hmem⟩ := step_hostWrite hs hv haddr hd
  have hstore : t.mem.read addr.toNat = v := (hmem _).trans (if_pos rfl)
  rw [← hparams] at haddr
  rw [← hentries] at he
  refine ⟨t, hstep, hentries, fun hc => hvw (hstore.symm.trans (hc _ he)), ?_, fun x => ?_,
    fun is his => runInstrs_entry_or_evicted hinv he hstore his⟩
  · exact ⟨_, HostAccess.hostReadMem_of_lt haddr, by rw [hstore]; rfl⟩
  · refine ⟨_, exec_cacheWrite addr x t, fun hc => coherent_cacheWrite_of_except _ hinv haddr fun e hmem' hne => ?_⟩
    rw [hmem, if_neg fun h => hne (BitVec.eq_of_toNat_eq h)]
    exact hc e (hentries ▸ hmem')

end Sys2Proof.Recency
end

section
/-! PROOFS. The recency-rank tracker (41_recency_tracker.md): every rank below the count is exactly one slot's, and the
ranks and the count fit their registers. -/

namespace Sys2Proof.Tracker

open Sys2Proof.Machine

/-! ### The slot of a rank (R130, R142) -/

section Ranks
variable {c : Cache} {n : Nat}

theorem existsUnique_slot_of_rank (ht : c.Tracks n) {k : Nat} (hk : k < c.count) :
    ∃! i : Nat, ∃ t : Slot, c.slots[i]? = some t ∧ t.valid = true ∧ t.rank = k := by
  obtain ⟨i, t, hi, hv, hr⟩ := ht.rank_surj hk
  refine ⟨i, ⟨t, hi, hv, hr⟩, ?_⟩
  rintro j ⟨u, hj, hu, hur⟩
  exact ht.rank_inj j i u t hj hi hu hv (hur.trans hr.symm)

/-- The slot the tracker calls newest has the greatest rank (R139). -/
theorem newest_slot (ht : c.Tracks n) (hpos : 0 < c.count) :
    ∃ (i : Nat) (t : Slot), c.newest = some i ∧ c.slots[i]? = some t ∧ t.valid = true ∧ t.rank = c.count - 1 := by
  cases hf : c.newest with
  | none =>
    obtain ⟨i, t, hi, hv, hr⟩ := ht.rank_surj (Nat.sub_lt hpos Nat.one_pos)
    have hno := List.findIdx?_eq_none_iff.1 hf t (List.mem_of_getElem? hi)
    rw [hv, hr, Nat.sub_add_cancel hpos] at hno
    simp at hno
  | some i =>
    obtain ⟨hlt, hp, -⟩ := List.findIdx?_eq_some_iff_getElem.1 hf
    simp only [Bool.and_eq_true, beq_iff_eq] at hp
    exact ⟨i, _, rfl, List.getElem?_eq_getElem hlt, hp.1, by omega⟩

theorem abs_head? (ht : c.Tracks n) {i : Nat} {t : Slot} (hi : c.slots[i]? = some t) (hv : t.valid = true)
    (hr : t.rank = 0) : c.abs.head? = some t.entry := by
  rw [List.head?_eq_getElem?, ← hr]
  exact ht.abs_at hi hv

theorem abs_getLast? (ht : c.Tracks n) {i : Nat} {t : Slot} (hi : c.slots[i]? = some t) (hv : t.valid = true)
    (hr : t.rank = c.count - 1) : c.abs.getLast? = some t.entry := by
  rw [List.getLast?_eq_getElem?, ht.abs_length, ← hr]
  exact ht.abs_at hi hv

end Ranks

/-! ### The registers' widths (R8, R28) -/

theorem capacity_le_two_pow_rankWidth (p : Params) : p.capacity ≤ 2 ^ p.rankWidth := by
  unfold Params.rankWidth
  split_ifs with h
  · exact h.trans Nat.one_le_two_pow
  · have hlt : p.capacity - 1 < 2 ^ (Nat.log2 (p.capacity - 1) + 1) := Nat.lt_log2_self
    have hmono : 2 ^ (Nat.log2 (p.capacity - 1) + 1) ≤ 2 ^ max 1 (Nat.log2 (p.capacity - 1) + 1) :=
      Nat.pow_le_pow_right Nat.two_pos (Nat.le_max_right _ _)
    omega

theorem capacity_lt_two_pow_countWidth (p : Params) : p.capacity < 2 ^ p.countWidth := by
  unfold Params.countWidth
  split_ifs with h
  · rw [h]
    exact Nat.one_pos
  · exact Nat.lt_log2_self

/-! ### The statements -/

/-- Settles O26: rank 0 and rank `count - 1` are slots', whose entries stand first and last. -/
theorem victimIsUnique : Obligations.VictimIsUnique := by
  intro s hs hpos
  have ht := hs.tracks
  obtain ⟨i, t, hvictim, hi, hv, hr⟩ := ht.victim hpos
  obtain ⟨j, u, hnewest, hj, hu, hur⟩ := newest_slot ht hpos
  exact ⟨existsUnique_slot_of_rank ht hpos, ⟨i, t, hvictim, hi, abs_head? ht hi hv hr⟩,
    existsUnique_slot_of_rank ht (Nat.sub_lt hpos Nat.one_pos), ⟨j, u, hnewest, hj, abs_getLast? ht hj hu hur⟩⟩

/-- Settles O27: a rank is below the count, the count at most the capacity, which fits both widths. -/
theorem ranksAndCountFitTheirRegisters : Obligations.RanksAndCountFitTheirRegisters := by
  intro s hs
  have ht := hs.tracks
  have hcount := ht.count_le
  have hrank := capacity_le_two_pow_rankWidth s.params
  refine ⟨fun t hmem => ?_, hcount, hcount.trans_lt (capacity_lt_two_pow_countWidth _), hrank⟩
  obtain ⟨hslot, hv⟩ := List.mem_filter.1 hmem
  obtain ⟨i, hi⟩ := List.getElem?_of_mem hslot
  have hlt := ht.rank_lt i t hi hv
  exact ⟨by omega, by omega⟩

end Sys2Proof.Tracker
end

section
/-! PROOFS. What each instruction reports and touches: its error (60_exceptions.md), its register (10_state.md R23) and
its memory-port traffic (20_memory.md R56); the inverse laws of ADD and SUB (92_eei_decisions.md D2). -/

namespace Sys2Proof.Frames

open Sys2Proof.Machine Sys2Proof.CacheCommands

/-! ### Errors (R173, R174) -/

/-- What a bounds check reports. -/
def rangeError (k : RangeKind) (bound n : Nat) : Option MachineError :=
  if bound ≤ n then some (.outOfRange k n) else none

theorem readReply_error? {s : State} (hs : s.Inv) (addr : Addr) :
    (readReply (cacheRead addr s).1).error? = rangeError .addr s.params.storeSize addr.toNat := by
  rw [Encoding.cacheRead_fst hs, rangeError]
  rcases Nat.lt_or_ge addr.toNat s.params.storeSize with h | h
  · rw [if_pos h, if_neg (Nat.not_le.2 h)]
    rfl
  · rw [if_neg (Nat.not_lt.2 h), if_pos h]
    rfl

theorem writeReply_error? (addr : Addr) (v : Word) (s : State) :
    (writeReply (cacheWrite addr v s).1).error? = rangeError .addr s.params.storeSize addr.toNat := by
  rw [Encoding.cacheWrite_fst, rangeError]
  rcases Nat.lt_or_ge addr.toNat s.params.storeSize with h | h
  · rw [if_pos h, if_neg (Nat.not_le.2 h)]
    rfl
  · rw [if_neg (Nat.not_lt.2 h), if_pos h]
    rfl

theorem exec_error {s : State} (hs : s.Inv) (i : Instr) :
    ∃ t r, exec i s = .next t ∧ t.reply = some r ∧ r.error? = expectedError s.params i := by
  cases i with
  | cacheRead addr => exact ⟨_, _, exec_cacheRead addr s, rfl, readReply_error? hs addr⟩
  | cacheWrite addr v => exact ⟨_, _, exec_cacheWrite addr v s, rfl, writeReply_error? addr _ s⟩
  | load a b =>
    have hread := Encoding.cacheRead_fst hs b
    simp only [expectedError]
    rcases Nat.lt_or_ge b.toNat s.params.storeSize with hb | hb
    · rw [if_pos hb] at hread
      rw [if_neg (Nat.not_le.2 hb)]
      rcases Nat.lt_or_ge a.toNat 8 with ha | ha
      · exact ⟨_, _, exec_load_ok hread ha, rfl, (if_neg (Nat.not_le.2 ha)).symm⟩
      · exact ⟨_, _, exec_load_reg hread ha, rfl, (if_pos ha).symm⟩
    · rw [if_neg (Nat.not_lt.2 hb)] at hread
      exact ⟨_, _, exec_load_err hread, rfl, (if_pos hb).symm⟩
  | store a b =>
    simp only [expectedError]
    rcases Nat.lt_or_ge a.toNat 8 with ha | ha
    · rw [if_neg (Nat.not_le.2 ha)]
      exact ⟨_, _, exec_store_lt ha, rfl, writeReply_error? b _ s⟩
    · exact ⟨_, _, exec_store_ge ha, rfl, (if_pos ha).symm⟩
  | add a b =>
    simp only [expectedError]
    by_cases h : 8 ≤ a.toNat ∨ 8 ≤ b.toNat
    · refine ⟨_, _, exec_add_ge h, rfl, ?_⟩
      by_cases hb : 8 ≤ b.toNat
      · rw [if_pos hb, if_pos hb]
        rfl
      · rw [if_neg hb, if_neg hb, if_pos (h.resolve_right hb)]
        rfl
    · refine ⟨_, _, exec_add_lt (by omega) (by omega), rfl, ?_⟩
      rw [if_neg (by omega), if_neg (by omega)]
      rfl
  | sub a b =>
    simp only [expectedError]
    by_cases h : 8 ≤ a.toNat ∨ 8 ≤ b.toNat
    · refine ⟨_, _, exec_sub_ge h, rfl, ?_⟩
      by_cases ha : 8 ≤ a.toNat
      · rw [if_pos ha, if_pos ha]
        rfl
      · rw [if_neg ha, if_neg ha, if_pos (h.resolve_left ha)]
        rfl
    · refine ⟨_, _, exec_sub_lt (by omega) (by omega), rfl, ?_⟩
      rw [if_neg (by omega), if_neg (by omega)]
      rfl
  | nop => exact ⟨_, _, exec_nop s, rfl, rfl⟩

/-! ### Registers (R23) -/

theorem cacheWrite_regs (addr : Addr) (v : Word) (s : State) : (cacheWrite addr v s).2.regs = s.regs := by
  obtain ⟨-, hregs, -⟩ := cacheWrite_frame addr v s
  exact hregs

/-- The registers after an instruction: as before, or with its own destination written. -/
inductive RegsAfter (i : Instr) (r : Vector Word 8) : Vector Word 8 → Prop where
  | same : RegsAfter i r r
  | set {id : Nat} (v : Word) (hi : writesReg i = some id) (hid : id < 8) : RegsAfter i r (r.set id v)

theorem exec_regs (i : Instr) (s : State) : ∃ t, exec i s = .next t ∧ RegsAfter i s.regs t.regs := by
  cases i with
  | cacheRead addr =>
    refine ⟨_, exec_cacheRead addr s, ?_⟩
    rw [State.setReply_regs, cacheRead_regs]
    exact .same
  | cacheWrite addr v =>
    refine ⟨_, exec_cacheWrite addr v s, ?_⟩
    rw [State.setReply_regs, cacheWrite_regs]
    exact .same
  | load a b =>
    cases hr : (cacheRead b s).1 with
    | err e =>
      refine ⟨_, exec_load_err hr, ?_⟩
      rw [State.setReply_regs, cacheRead_regs]
      exact .same
    | ok v =>
      rcases Nat.lt_or_ge a.toNat 8 with ha | ha
      · exact ⟨_, exec_load_ok hr ha, .set v rfl ha⟩
      · refine ⟨_, exec_load_reg hr ha, ?_⟩
        rw [State.setReply_regs, cacheRead_regs]
        exact .same
  | store a b =>
    rcases Nat.lt_or_ge a.toNat 8 with ha | ha
    · refine ⟨_, exec_store_lt ha, ?_⟩
      rw [State.setReply_regs, cacheWrite_regs]
      exact .same
    · exact ⟨_, exec_store_ge ha, .same⟩
  | add a b =>
    by_cases h : 8 ≤ a.toNat ∨ 8 ≤ b.toNat
    · exact ⟨_, exec_add_ge h, .same⟩
    · exact ⟨_, exec_add_lt (by omega) (by omega), .set _ rfl (by omega)⟩
  | sub a b =>
    by_cases h : 8 ≤ a.toNat ∨ 8 ≤ b.toNat
    · exact ⟨_, exec_sub_ge h, .same⟩
    · exact ⟨_, exec_sub_lt (by omega) (by omega), .set _ rfl (by omega)⟩
  | nop => exact ⟨_, exec_nop s, .same⟩

/-! ### Memory-port traffic (R56, R122, R163) -/

/-- The events of a cache read: none on a hit, otherwise the store's answer to one read. -/
def readEvents (addr : Addr) (s : State) : List MemEvent :=
  match s.cache.lookup addr with
  | some _ => []
  | none => [if addr.toNat < s.params.storeSize then .mr addr (s.mem.read addr.toNat) else .merr .read addr]

/-- The event of a cache write: the store's answer to it. -/
def writeEvent (addr : Addr) (v : Word) (s : State) : MemEvent :=
  if addr.toNat < s.params.storeSize then .mw addr v else .merr .write addr

/-- The events of an instruction. -/
def traffic (i : Instr) (s : State) : List MemEvent :=
  match i with
  | .cacheRead addr | .load _ addr => readEvents addr s
  | .cacheWrite addr v => [writeEvent addr (s.params.toWord v) s]
  | .store a b => if h : a.toNat < 8 then [writeEvent b s.regs[a.toNat] s] else []
  | .add _ _ | .sub _ _ | .nop => []

theorem traffic_store_lt {a : Nibble} (b : Addr) (s : State) (ha : a.toNat < 8) :
    traffic (.store a b) s = [writeEvent b s.regs[a.toNat] s] := dif_pos ha

theorem traffic_store_ge {a : Nibble} (b : Addr) (s : State) (ha : 8 ≤ a.toNat) : traffic (.store a b) s = [] :=
  dif_neg (Nat.not_lt.2 ha)

section Events
variable {s : State} {addr : Addr}

theorem cacheRead_trace (addr : Addr) (s : State) : (cacheRead addr s).2.trace = s.trace ++ readEvents addr s := by
  rcases cacheRead_cases addr s with ⟨h, t, hl, -, -, -, hr⟩ | ⟨hl, ha, hr⟩ | ⟨hl, ha, hr⟩ <;>
    rw [hr, readEvents, hl]
  · exact (List.append_nil _).symm
  · rw [if_pos ha]
    rfl
  · rw [if_neg (Nat.not_lt.2 ha)]
    rfl

theorem cacheWrite_trace (addr : Addr) (v : Word) (s : State) :
    (cacheWrite addr v s).2.trace = s.trace ++ [writeEvent addr v s] := by
  rcases cacheWrite_cases addr v s with ⟨ha, hw⟩ | ⟨ha, hw⟩ <;> rw [hw, writeEvent]
  · rw [if_pos ha]
    rfl
  · rw [if_neg (Nat.not_lt.2 ha)]
    rfl

theorem readEvents_length_le (addr : Addr) (s : State) : (readEvents addr s).length ≤ 1 := by
  unfold readEvents
  split
  · exact Nat.zero_le 1
  · exact le_refl 1

theorem of_mem_readEvents {e : MemEvent} (he : e ∈ readEvents addr s) : e.addr = addr ∧ e.op = .read := by
  unfold readEvents at he
  split at he
  · cases he
  · rw [List.mem_singleton.1 he]
    split_ifs
    · exact ⟨rfl, rfl⟩
    · exact ⟨rfl, rfl⟩

theorem writeEvent_addr (addr : Addr) (v : Word) (s : State) : (writeEvent addr v s).addr = addr := by
  unfold writeEvent; split_ifs <;> rfl

theorem writeEvent_op (addr : Addr) (v : Word) (s : State) : (writeEvent addr v s).op = .write := by
  unfold writeEvent; split_ifs <;> rfl

/-- A read makes no access exactly when the address is cached. -/
theorem readEvents_eq_nil_iff (hs : s.Inv) : readEvents addr s = [] ↔ lookupEntry s.entries addr ≠ none := by
  unfold readEvents
  cases hl : s.cache.lookup addr with
  | some h =>
    obtain ⟨t, hi, -, -⟩ := Cache.lookup_some hl
    simp [lookupEntry_of_hit hs hl hi]
  | none => simp [lookupEntry_of_miss hs hl]

end Events

theorem exec_trace (i : Instr) (s : State) : ∃ t, exec i s = .next t ∧ t.trace = s.trace ++ traffic i s := by
  cases i with
  | cacheRead addr => exact ⟨_, exec_cacheRead addr s, cacheRead_trace addr s⟩
  | cacheWrite addr v => exact ⟨_, exec_cacheWrite addr v s, cacheWrite_trace addr _ s⟩
  | load a b =>
    cases hr : (cacheRead b s).1 with
    | err e => exact ⟨_, exec_load_err hr, cacheRead_trace b s⟩
    | ok v =>
      rcases Nat.lt_or_ge a.toNat 8 with ha | ha
      · exact ⟨_, exec_load_ok hr ha, cacheRead_trace b s⟩
      · exact ⟨_, exec_load_reg hr ha, cacheRead_trace b s⟩
  | store a b =>
    rcases Nat.lt_or_ge a.toNat 8 with ha | ha
    · rw [traffic_store_lt b s ha]
      exact ⟨_, exec_store_lt ha, cacheWrite_trace b _ s⟩
    · rw [traffic_store_ge b s ha]
      exact ⟨_, exec_store_ge ha, (List.append_nil _).symm⟩
  | add a b =>
    by_cases h : 8 ≤ a.toNat ∨ 8 ≤ b.toNat
    · exact ⟨_, exec_add_ge h, (List.append_nil _).symm⟩
    · exact ⟨_, exec_add_lt (by omega) (by omega), (List.append_nil _).symm⟩
  | sub a b =>
    by_cases h : 8 ≤ a.toNat ∨ 8 ≤ b.toNat
    · exact ⟨_, exec_sub_ge h, (List.append_nil _).symm⟩
    · exact ⟨_, exec_sub_lt (by omega) (by omega), (List.append_nil _).symm⟩
  | nop => exact ⟨_, exec_nop s, (List.append_nil _).symm⟩

/-- A STORE makes its access exactly when it has read its register (R151). -/
theorem traffic_store_length (a : Nibble) (b : Addr) (s : State) :
    (traffic (.store a b) s).length = if a.toNat < 8 then 1 else 0 := by
  split_ifs with ha
  · rw [traffic_store_lt b s ha, List.length_singleton]
  · rw [traffic_store_ge b s (Nat.le_of_not_lt ha), List.length_nil]

/-- An instruction makes at most one access. -/
theorem traffic_length_le (i : Instr) (s : State) : (traffic i s).length ≤ 1 := by
  cases i with
  | cacheRead addr => exact readEvents_length_le addr s
  | load a b => exact readEvents_length_le b s
  | cacheWrite addr v => exact le_refl 1
  | store a b =>
    rw [traffic_store_length]
    split_ifs <;> decide
  | add a b => exact Nat.zero_le 1
  | sub a b => exact Nat.zero_le 1
  | nop => exact Nat.zero_le 1

/-- An event is at the instruction's own address, and a write exactly for a storing instruction. -/
def OwnAccess (i : Instr) (e : MemEvent) : Prop :=
  portAddr i = some e.addr ∧ (e.op = .write ↔ storesTo i = some e.addr)

theorem ownAccess_of_mem_readEvents {i : Instr} {s : State} {addr : Addr} {e : MemEvent} (he : e ∈ readEvents addr s)
    (hport : portAddr i = some addr) (hstore : storesTo i = none) : OwnAccess i e := by
  obtain ⟨haddr, hop⟩ := of_mem_readEvents he
  rw [OwnAccess, haddr, hop, hstore]
  exact ⟨hport, nofun, nofun⟩

theorem ownAccess_writeEvent {i : Instr} {addr : Addr} (v : Word) (s : State) (hport : portAddr i = some addr)
    (hstore : storesTo i = some addr) : OwnAccess i (writeEvent addr v s) := by
  rw [OwnAccess, writeEvent_addr, writeEvent_op]
  exact ⟨hport, fun _ => hstore, fun _ => rfl⟩

theorem ownAccess_of_mem_traffic {i : Instr} {s : State} {e : MemEvent} (he : e ∈ traffic i s) : OwnAccess i e := by
  cases i with
  | cacheRead addr => exact ownAccess_of_mem_readEvents he rfl rfl
  | load a b => exact ownAccess_of_mem_readEvents he rfl rfl
  | cacheWrite addr v =>
    obtain rfl := List.mem_singleton.1 he
    exact ownAccess_writeEvent _ s rfl rfl
  | store a b =>
    rcases Nat.lt_or_ge a.toNat 8 with ha | ha
    · rw [traffic_store_lt b s ha] at he
      obtain rfl := List.mem_singleton.1 he
      exact ownAccess_writeEvent _ s rfl rfl
    · rw [traffic_store_ge b s ha] at he
      cases he
  | add a b => cases he
  | sub a b => cases he
  | nop => cases he

/-! ### Wrapping arithmetic (R157) -/

/-- Subtracting what was added gives the other Word back. -/
theorem wordSub_wordAdd {W p q : Nat} (hp : p < 2 ^ W) (hq : q < 2 ^ W) : wordSub W (wordAdd W p q) p = q := by
  rw [wordSub_eq (wordAdd_lt W p q) hp, wordAdd]
  rcases Nat.lt_or_ge (p + q) (2 ^ W) with h | h
  · rw [Nat.mod_eq_of_lt h, if_pos (Nat.le_add_right p q), Nat.add_sub_cancel_left]
  · rw [Nat.mod_eq_sub_mod h, Nat.mod_eq_of_lt (by omega), if_neg (by omega)]
    change (2 ^ W + (p + q - 2 ^ W) - p : Nat) = q
    omega

theorem wordSub_self {W p : Nat} (hp : p < 2 ^ W) : wordSub W p p = 0 := by
  rw [wordSub_eq hp hp, if_pos (le_refl p), Nat.sub_self]

/-! ### The statements -/

/-- Settles O36: the checks in the order of evaluation, instruction by instruction. -/
theorem errorsFollowTheTable : Obligations.ErrorsFollowTheTable :=
  fun _ i hs => exec_error hs i

/-- Settles O41: a register that is not the destination is not the one written. -/
theorem onlyLoadAddSubWriteRegisters : Obligations.OnlyLoadAddSubWriteRegisters := by
  intro s t i id hid hexec hne
  obtain ⟨t', ht', hregs⟩ := exec_regs i s
  obtain rfl := Host.Outcome.next.inj (ht'.symm.trans hexec)
  generalize t'.regs = r at hregs
  cases hregs with
  | same => rfl
  | @set id' v hi hid' => exact Vector.getElem_set_ne hid' hid fun heq => hne (heq ▸ hi)

/-- Settles O43: by the events of each instruction. -/
theorem memoryPortAccessCounts : Obligations.MemoryPortAccessCounts := by
  intro s t i hs hexec
  obtain ⟨t', ht', htrace⟩ := exec_trace i s
  obtain rfl := Host.Outcome.next.inj (ht'.symm.trans hexec)
  refine ⟨traffic i s, htrace, traffic_length_le i s, fun e => ownAccess_of_mem_traffic, fun addr hi => ?_,
    fun addr v hi => ?_, fun a addr hi => ?_⟩
  · rcases hi with rfl | ⟨a, rfl⟩
    · exact readEvents_eq_nil_iff hs
    · exact readEvents_eq_nil_iff hs
  · rw [hi]
    rfl
  · rw [hi]
    rw [traffic_store_length]
    split_ifs with ha <;> simp [ha]

/-- Settles O35: ADD leaves `x[b]`, so SUB takes away what was added; a Word less itself is zero. -/
theorem subUndoesAdd : Obligations.SubUndoesAdd := by
  intro s a b ha hs hb
  have hwa := hs.reg_isWord _ ha
  have hwb := hs.reg_isWord _ hb
  refine ⟨fun hne => ⟨_, _, exec_add_lt ha hb, exec_sub_lt ha hb, ?_⟩, fun heq => ⟨_, exec_sub_lt ha hb, ?_⟩⟩
  · simp only [State.setReply_regs, State.setRegs_regs, State.setReply_params, State.setRegs_params,
      Vector.getElem_set_self, Vector.getElem_set_ne ha hb hne, wordSub_wordAdd hwb hwa, Vector.set_set,
      Vector.set_getElem_self]
  · simp only [State.setReply_regs, State.setRegs_regs, ← heq, wordSub_self hwa]

end Sys2Proof.Frames
end

section
/-! PROOFS. Words and lines written out (30_encoding.md R93, 95_test_vectors.md section 2.10). -/

namespace Sys2Proof.Assembly

open Sys2Proof.Machine

/-- A line is well formed exactly when its instruction is: every field but the Word of a CACHE.WRITE is as wide as the
encoding's (R84, R81). -/
theorem asm_wellFormed (W : Nat) (i : Instr) : i.asm.wellFormed W = i.wellFormed W := by
  have ha (a : Nibble) : decide (fitsA a.toNat) = true := decide_eq_true a.isLt
  have hb (b : Addr) : decide (fitsB b.toNat) = true := decide_eq_true b.isLt
  cases i <;> simp only [Instr.asm, AsmLine.wellFormed, Instr.wellFormed, ha, hb, Bool.and_true, Bool.true_and]

/-- Assembling a well-formed line takes each number back to its field. -/
theorem assemble_asm {W : Nat} {i : Instr} (hi : i.wellFormed W = true) : assemble W i.asm = some i := by
  unfold assemble
  rw [if_pos ((asm_wellFormed W i).trans hi)]
  cases i <;> simp only [Instr.asm, BitVec.ofNat_toNat, BitVec.setWidth_eq]

/-- Settles O15: by whether the instruction is well formed. -/
theorem assemblyRoundTrip : Obligations.AssemblyRoundTrip := by
  refine fun W i => ⟨asm_wellFormed W i, ?_⟩
  split_ifs with hi
  · exact assemble_asm hi
  · exact if_neg (by rwa [asm_wellFormed])

/-- Settles O10: each word is evaluated by the decoder. -/
theorem writtenOutWordsDecode : Obligations.WrittenOutWordsDecode :=
  ⟨rfl, rfl, rfl, rfl, rfl, rfl, rfl, rfl, rfl, rfl⟩

end Sys2Proof.Assembly
end
